-- ==== Sys2Proof/Word.lean ====
section
/-! DEFINITION. The widths of the ghettoasm core (00_scope.md R4): a register, a memory cell and an encoded
instruction have 32 bits, a constant 16, and a text is a sequence of characters. -/

namespace Sys2Proof

/-- A 32-bit value: a register, a memory cell or an encoded instruction word (R4, `W` and `IW`). -/
abbrev Word := BitVec 32

/-- The value of a Constant operand: 16 bits, unsigned (30_encoding.md R56; R4, `CW`). -/
abbrev Const := BitVec 16

/-- The number of registers (10_state.md R11, `N`). -/
abbrev numRegs : Nat := 30

/-- An index that names a register (10_state.md R11). -/
abbrev RegIdx := Fin numRegs

/-- A text presented to the text front end, or a piece of one (30_encoding.md R58). -/
abbrev Text := List Char

end Sys2Proof
end

