-- ==== Sys2Proof/Config.lean ====
section
/-! DEFINITION. What is fixed for one core (00_scope.md R5): the values at construction with the spec's defaults, the types
of the instruction catalog, and the parameters. The rows of the default catalog, and with them the default parameters, stand
in `Sys2Proof/Decode.lean`. -/

namespace Sys2Proof

/-- `INIT_REGS` at its default (R5): all zero. Position `k` is register `k + 1`. DESIGN CHOICE (log 4), unsafe. -/
def Config.initRegs : Vector Word 29 := Vector.replicate 29 0

/-- `INIT_PC` at its default (R5). DESIGN CHOICE (log 4), unsafe. -/
def Config.initPc : Nat := 0

/-- What a memory cell reads as that the memory does not list; with nothing listed this is `INIT_MEM` at its default
(R5): every cell 0. DESIGN CHOICE (logs 4 and 5), unsafe. -/
def Config.unwrittenCell : Word := 0

/-- The kind of an operand slot of a signature (00_scope.md, glossary, "Operand signature"). -/
inductive Slot where
  | register
  | constant
deriving DecidableEq, Repr

/-- The encoding family of a catalog entry (30_encoding.md R46). -/
inductive Family where
  | registerForm
  | immediateForm
deriving DecidableEq, Repr

/-- The operation of a catalog entry: one name for each of the 25 mnemonics (30_encoding.md R52). -/
inductive Op where
  | add | sub | addi | mult | fma | div | mod
  | and | or | xor | andi | ori | sll | srl
  | li | lw | sw
  | stpush | stpop | stpushi
  | jal | jr | j
  | pkr | pkm
deriving DecidableEq, Repr

/-- A mask and match pair (30_encoding.md R49). -/
structure MaskMatch where
  mask : Word
  /-- The spec's `match`. -/
  pattern : Word
deriving DecidableEq, Repr

/-- An entry of the instruction catalog (00_scope.md R5). The pair is optional, as in the source (30_encoding.md R51);
every entry of the default catalog has one. -/
structure Entry where
  op : Op
  signature : List Slot
  family : Family
  code : Option MaskMatch
deriving DecidableEq, Repr

/-- The parameters of R5 that a transaction depends on; the other three are values at construction. -/
structure Params where
  /-- `MEM_CELLS`, the number of memory cells (20_memory.md R30). -/
  memCells : Nat
  /-- `STACK_DEPTH`, the most entries the stack holds; `none` is the spec's ∞ (10_state.md R20). -/
  stackDepth : Option Nat
  /-- `CATALOG`, the instruction catalog in scan order (30_encoding.md R52, R53). -/
  catalog : List Entry
deriving DecidableEq, Repr

end Sys2Proof
end

