-- ==== Sys2Proof/Syntax.lean ====
section
/-! DEFINITION. The instructions: one constructor for each row of spec/opcode_table.json, the operands in the order of
the row's signature and under the spec's names (30_encoding.md R52). -/

namespace Sys2Proof

/-- An instruction with its operand values, as the dispatcher hands them to an operation (40_dispatch.md R76). A
Register operand is a natural number, because a text may carry any index (30_encoding.md R61) and a word any of 0 to 31;
the index is validated when the instruction runs (40_dispatch.md R73). A Constant operand is below 2^16 on either path. -/
inductive Instr where
  | add (d s t : Nat)
  | sub (d s t : Nat)
  | addi (t s : Nat) (C : Const)
  | mult (d s t : Nat)
  | fma (d s t : Nat)
  | div (d s t : Nat)
  | mod (d s t : Nat)
  | and (d s t : Nat)
  | or (d s t : Nat)
  | xor (d s t : Nat)
  | andi (t s : Nat) (C : Const)
  | ori (t s : Nat) (C : Const)
  | sll (d t : Nat) (C : Const)
  | srl (d t : Nat) (C : Const)
  | li (rd : Nat) (C : Const)
  | lw (t : Nat) (C : Const) (s : Nat)
  | sw (t : Nat) (C : Const) (s : Nat)
  | stpush (r : Nat)
  | stpop (rd : Nat)
  | stpushi (C : Const)
  | jal (C : Const)
  | jr (r : Nat)
  | j (C : Const)
  | pkr (r : Nat)
  | pkm (C : Const)
deriving DecidableEq, Repr

/-- The values in the Register slots of an instruction (30_encoding.md R52), in signature order. -/
def Instr.registers : Instr → List Nat
  | .add d s t => [d, s, t]
  | .sub d s t => [d, s, t]
  | .addi t s _ => [t, s]
  | .mult d s t => [d, s, t]
  | .fma d s t => [d, s, t]
  | .div d s t => [d, s, t]
  | .mod d s t => [d, s, t]
  | .and d s t => [d, s, t]
  | .or d s t => [d, s, t]
  | .xor d s t => [d, s, t]
  | .andi t s _ => [t, s]
  | .ori t s _ => [t, s]
  | .sll d t _ => [d, t]
  | .srl d t _ => [d, t]
  | .li rd _ => [rd]
  | .lw t _ s => [t, s]
  | .sw t _ s => [t, s]
  | .stpush r => [r]
  | .stpop rd => [rd]
  | .stpushi _ => []
  | .jal _ => []
  | .jr r => [r]
  | .j _ => []
  | .pkr r => [r]
  | .pkm _ => []

end Sys2Proof
end

