-- ==== Sys2Proof/WellFormed.lean ====
section
/-! DEFINITION. Which instructions an encoded word can carry: every operand value fits its field (30_encoding.md R67 (a)).
Whether a Register operand names a register is another matter: 30 and 31 fit their field and fault when the instruction
runs (40_dispatch.md R73). -/

namespace Sys2Proof

/-- A value that fits a 5-bit operand field (00_scope.md R4, `FW`). -/
def fitsField (v : Nat) : Bool := decide (v < 32)

/-- Every operand of the instruction fits its field: Register operands and the shift amount of `sll` and `srl` have 5 bits
(30_encoding.md R47, R48); a Constant of the immediate form has its 16 bits by type. -/
def Instr.wf : Instr → Bool
  | .add d s t => fitsField d && fitsField s && fitsField t
  | .sub d s t => fitsField d && fitsField s && fitsField t
  | .addi t s _ => fitsField t && fitsField s
  | .mult d s t => fitsField d && fitsField s && fitsField t
  | .fma d s t => fitsField d && fitsField s && fitsField t
  | .div d s t => fitsField d && fitsField s && fitsField t
  | .mod d s t => fitsField d && fitsField s && fitsField t
  | .and d s t => fitsField d && fitsField s && fitsField t
  | .or d s t => fitsField d && fitsField s && fitsField t
  | .xor d s t => fitsField d && fitsField s && fitsField t
  | .andi t s _ => fitsField t && fitsField s
  | .ori t s _ => fitsField t && fitsField s
  | .sll d t C => fitsField d && fitsField t && fitsField C.toNat
  | .srl d t C => fitsField d && fitsField t && fitsField C.toNat
  | .li rd _ => fitsField rd
  | .lw t _ s => fitsField t && fitsField s
  | .sw t _ s => fitsField t && fitsField s
  | .stpush r => fitsField r
  | .stpop rd => fitsField rd
  | .stpushi _ => true
  | .jal _ => true
  | .jr r => fitsField r
  | .j _ => true
  | .pkr r => fitsField r
  | .pkm _ => true

end Sys2Proof
end

