-- ==== Sys2Proof/Decode.lean ====
section
/-! DEFINITION. The default instruction catalog, what a catalog and the parameters must meet, the decoder (a mask and match
lookup), operand extraction, and the encoder written from the same catalog (00_scope.md R5, 30_encoding.md R45 to R57, R64,
R65). -/

namespace Sys2Proof

/-- The mnemonic of an operation (30_encoding.md R52), also its spelling in a text (R59). -/
def Op.mnemonic : Op → Text
  | .add => "add".toList
  | .sub => "sub".toList
  | .addi => "addi".toList
  | .mult => "mult".toList
  | .fma => "fma".toList
  | .div => "div".toList
  | .mod => "mod".toList
  | .and => "and".toList
  | .or => "or".toList
  | .xor => "xor".toList
  | .andi => "andi".toList
  | .ori => "ori".toList
  | .sll => "sll".toList
  | .srl => "srl".toList
  | .li => "li".toList
  | .lw => "lw".toList
  | .sw => "sw".toList
  | .stpush => "stpush".toList
  | .stpop => "stpop".toList
  | .stpushi => "stpushi".toList
  | .jal => "jal".toList
  | .jr => "jr".toList
  | .j => "j".toList
  | .pkr => "pkr".toList
  | .pkm => "pkm".toList

/-! ### The catalog (30_encoding.md R52) -/

/-- A register-form entry with the given signature, mask and match. -/
def Entry.rForm (op : Op) (sig : List Slot) (mask pattern : Word) : Entry :=
  { op := op, signature := sig, family := .registerForm, code := some { mask := mask, pattern := pattern } }

/-- An immediate-form entry with the given signature, mask and match. -/
def Entry.iForm (op : Op) (sig : List Slot) (mask pattern : Word) : Entry :=
  { op := op, signature := sig, family := .immediateForm, code := some { mask := mask, pattern := pattern } }

/-- The row of the default catalog for an operation (30_encoding.md R52, with the masks of R49). -/
def entry : Op → Entry
  | .add => .rForm .add [.register, .register, .register] 0xFC0007FF 0x00000001
  | .sub => .rForm .sub [.register, .register, .register] 0xFC0007FF 0x00000002
  | .addi => .iForm .addi [.register, .register, .constant] 0xFC000000 0x04000000
  | .mult => .rForm .mult [.register, .register, .register] 0xFC0007FF 0x00000003
  | .fma => .rForm .fma [.register, .register, .register] 0xFC0007FF 0x00000004
  | .div => .rForm .div [.register, .register, .register] 0xFC0007FF 0x00000005
  | .mod => .rForm .mod [.register, .register, .register] 0xFC0007FF 0x00000006
  | .and => .rForm .and [.register, .register, .register] 0xFC0007FF 0x00000007
  | .or => .rForm .or [.register, .register, .register] 0xFC0007FF 0x00000008
  | .xor => .rForm .xor [.register, .register, .register] 0xFC0007FF 0x00000009
  | .andi => .iForm .andi [.register, .register, .constant] 0xFC000000 0x08000000
  | .ori => .iForm .ori [.register, .register, .constant] 0xFC000000 0x0C000000
  | .sll => .rForm .sll [.register, .register, .constant] 0xFC0007FF 0x0000000A
  | .srl => .rForm .srl [.register, .register, .constant] 0xFC0007FF 0x0000000B
  | .li => .iForm .li [.register, .constant] 0xFC1F0000 0x10000000
  | .lw => .iForm .lw [.register, .constant, .register] 0xFC000000 0x14000000
  | .sw => .iForm .sw [.register, .constant, .register] 0xFC000000 0x18000000
  | .stpush => .rForm .stpush [.register] 0xFC1FFFFF 0x0000000C
  | .stpop => .rForm .stpop [.register] 0xFC1FFFFF 0x0000000D
  | .stpushi => .iForm .stpushi [.constant] 0xFFFF0000 0x1C000000
  | .jal => .iForm .jal [.constant] 0xFFFF0000 0x20000000
  | .jr => .rForm .jr [.register] 0xFC1FFFFF 0x0000000E
  | .j => .iForm .j [.constant] 0xFFFF0000 0x24000000
  | .pkr => .rForm .pkr [.register] 0xFC1FFFFF 0x0000000F
  | .pkm => .iForm .pkm [.constant] 0xFFFF0000 0x28000000

/-- The operations in catalog order, # 1 to # 25 of R52. -/
def catalogOrder : List Op :=
  [.add, .sub, .addi, .mult, .fma, .div, .mod, .and, .or, .xor, .andi, .ori, .sll, .srl, .li, .lw, .sw,
   .stpush, .stpop, .stpushi, .jal, .jr, .j, .pkr, .pkm]

/-- The default instruction catalog (30_encoding.md R52), in scan order. -/
def catalog : List Entry := catalogOrder.map entry

/-- R54 (a): no bit of the match lies outside the mask. -/
abbrev MaskMatch.proper (c : MaskMatch) : Prop := c.pattern &&& ~~~c.mask = 0

/-- R54 (b): the two pairs disagree on a bit that both test. -/
abbrev MaskMatch.disjoint (a b : MaskMatch) : Prop := (a.pattern ^^^ b.pattern) &&& a.mask &&& b.mask ≠ 0

/-- The pairs of the entries that have one, in catalog order. -/
def codes (cat : List Entry) : List MaskMatch := cat.filterMap Entry.code

/-- The catalog well-formedness check of 30_encoding.md R54: (a), (b) for every two entries, and (c) mnemonics pairwise
distinct. -/
abbrev CatalogWf (cat : List Entry) : Prop :=
  (∀ c ∈ codes cat, c.proper) ∧ (codes cat).Pairwise MaskMatch.disjoint ∧
    (cat.map fun e => e.op.mnemonic).Nodup

/-- What R5 asks of `CATALOG` beside the check of R54: 25 entries, each with the operand slots of its mnemonic, by which the
rule of the operation names its operands (40_dispatch.md R76). Families, pairs, whether there is a pair, and the order are
free. DEDUCED (log 21), safe. -/
abbrev CatalogFits (cat : List Entry) : Prop :=
  cat.length = 25 ∧ ∀ e ∈ cat, e.signature = (entry e.op).signature

/-! ### The parameters of a core (00_scope.md R5) -/

/-- The defaults of R5: 640 × 1024 cells, an unbounded stack, the table of R52. -/
def Params.default : Params := { memCells := 655360, stackDepth := none, catalog := Sys2Proof.catalog }

/-- What R5 asks of the parameters: `MEM_CELLS` is at least 1, and the catalog is one (R54). -/
abbrev Params.wf (p : Params) : Prop := 1 ≤ p.memCells ∧ CatalogWf p.catalog ∧ CatalogFits p.catalog

/-! ### The decoder -/

/-- `word AND e.mask = e.match`, false for an entry without a pair (30_encoding.md R53). -/
def Entry.accepts (e : Entry) (w : Word) : Bool :=
  match e.code with
  | some c => w &&& c.mask == c.pattern
  | none => false

/-- `Decode(word)` of 30_encoding.md R53 over any catalog: the first entry, in catalog order, that the word matches;
`none` is the spec's "no instruction". -/
def decodeEntry (cat : List Entry) (w : Word) : Option Entry := cat.find? fun e => e.accepts w

/-- The 5-bit operand field of a word whose least significant bit is `lo`. -/
def field5 (lo : Nat) (w : Word) : Nat := (w.extractLsb' lo 5).toNat

/-- The 16-bit constant field of an immediate-form word, bits 15:0 (30_encoding.md R48). -/
def field16 (w : Word) : Nat := (w.extractLsb' 0 16).toNat

/-- `Extract` of 30_encoding.md R55, register form: slot after slot takes the 5-bit field at `lo`, and `lo` goes down by 5
(21, 16, 11), whatever the slot's kind. -/
def extractR : List Slot → Nat → Word → List Nat
  | [], _, _ => []
  | _ :: sig, lo, w => field5 lo w :: extractR sig (lo - 5) w

/-- `Extract` of 30_encoding.md R55, immediate form: a Register slot takes the next 5-bit field (21, then 16), the
Constant slot bits 15:0. -/
def extractI : List Slot → Nat → Word → List Nat
  | [], _, _ => []
  | .register :: sig, lo, w => field5 lo w :: extractI sig (lo - 5) w
  | .constant :: sig, lo, w => field16 w :: extractI sig lo w

/-- `Extract(e, word)` of 30_encoding.md R55: the operand values in signature order. -/
def extract (e : Entry) (w : Word) : List Nat :=
  match e.family with
  | .registerForm => extractR e.signature 21 w
  | .immediateForm => extractI e.signature 21 w

/-- The instruction of an operation on operand values in signature order (40_dispatch.md R76); `none` when the number of
values is not the operation's. A Constant keeps its low 16 bits, which every Constant operand fits (R76). -/
def Op.build : Op → List Nat → Option Instr
  | .add, [d, s, t] => some (.add d s t)
  | .sub, [d, s, t] => some (.sub d s t)
  | .addi, [t, s, C] => some (.addi t s (BitVec.ofNat 16 C))
  | .mult, [d, s, t] => some (.mult d s t)
  | .fma, [d, s, t] => some (.fma d s t)
  | .div, [d, s, t] => some (.div d s t)
  | .mod, [d, s, t] => some (.mod d s t)
  | .and, [d, s, t] => some (.and d s t)
  | .or, [d, s, t] => some (.or d s t)
  | .xor, [d, s, t] => some (.xor d s t)
  | .andi, [t, s, C] => some (.andi t s (BitVec.ofNat 16 C))
  | .ori, [t, s, C] => some (.ori t s (BitVec.ofNat 16 C))
  | .sll, [d, t, C] => some (.sll d t (BitVec.ofNat 16 C))
  | .srl, [d, t, C] => some (.srl d t (BitVec.ofNat 16 C))
  | .li, [rd, C] => some (.li rd (BitVec.ofNat 16 C))
  | .lw, [t, C, s] => some (.lw t (BitVec.ofNat 16 C) s)
  | .sw, [t, C, s] => some (.sw t (BitVec.ofNat 16 C) s)
  | .stpush, [r] => some (.stpush r)
  | .stpop, [rd] => some (.stpop rd)
  | .stpushi, [C] => some (.stpushi (BitVec.ofNat 16 C))
  | .jal, [C] => some (.jal (BitVec.ofNat 16 C))
  | .jr, [r] => some (.jr r)
  | .j, [C] => some (.j (BitVec.ofNat 16 C))
  | .pkr, [r] => some (.pkr r)
  | .pkm, [C] => some (.pkm (BitVec.ofNat 16 C))
  | _, _ => none

/-- Decoding and operand extraction over any catalog (30_encoding.md R53, R55). -/
def decodeWith (cat : List Entry) (w : Word) : Option Instr :=
  match decodeEntry cat w with
  | some e => e.op.build (extract e w)
  | none => none

/-- The decoder of a core with the default catalog: every word decodes to the instruction of the one entry it matches,
or to `none`, the spec's "no instruction" (30_encoding.md R57), which a transaction reports under its own name
`Machine.TxOutcome.noInstruction` (40_dispatch.md R79). -/
def decode (w : Word) : Option Instr := decodeWith catalog w

/-! ### The encoder -/

/-- The operation of an instruction. -/
def Instr.op : Instr → Op
  | .add _ _ _ => .add
  | .sub _ _ _ => .sub
  | .addi _ _ _ => .addi
  | .mult _ _ _ => .mult
  | .fma _ _ _ => .fma
  | .div _ _ _ => .div
  | .mod _ _ _ => .mod
  | .and _ _ _ => .and
  | .or _ _ _ => .or
  | .xor _ _ _ => .xor
  | .andi _ _ _ => .andi
  | .ori _ _ _ => .ori
  | .sll _ _ _ => .sll
  | .srl _ _ _ => .srl
  | .li _ _ => .li
  | .lw _ _ _ => .lw
  | .sw _ _ _ => .sw
  | .stpush _ => .stpush
  | .stpop _ => .stpop
  | .stpushi _ => .stpushi
  | .jal _ => .jal
  | .jr _ => .jr
  | .j _ => .j
  | .pkr _ => .pkr
  | .pkm _ => .pkm

/-- The operand values of an instruction in signature order. -/
def Instr.operands : Instr → List Nat
  | .add d s t => [d, s, t]
  | .sub d s t => [d, s, t]
  | .addi t s C => [t, s, C.toNat]
  | .mult d s t => [d, s, t]
  | .fma d s t => [d, s, t]
  | .div d s t => [d, s, t]
  | .mod d s t => [d, s, t]
  | .and d s t => [d, s, t]
  | .or d s t => [d, s, t]
  | .xor d s t => [d, s, t]
  | .andi t s C => [t, s, C.toNat]
  | .ori t s C => [t, s, C.toNat]
  | .sll d t C => [d, t, C.toNat]
  | .srl d t C => [d, t, C.toNat]
  | .li rd C => [rd, C.toNat]
  | .lw t C s => [t, C.toNat, s]
  | .sw t C s => [t, C.toNat, s]
  | .stpush r => [r]
  | .stpop rd => [rd]
  | .stpushi C => [C.toNat]
  | .jal C => [C.toNat]
  | .jr r => [r]
  | .j C => [C.toNat]
  | .pkr r => [r]
  | .pkm C => [C.toNat]

/-- `mask_5(v) << lo`: a value wider than the field is truncated silently (30_encoding.md R64). -/
def putField5 (lo v : Nat) : Word := BitVec.ofNat 32 (v % 32) <<< lo

/-- `mask_16(v)` in bits 15:0 (30_encoding.md R65). -/
def putField16 (v : Nat) : Word := BitVec.ofNat 32 (v % 65536)

/-- The operand bits of `Encode_R` (30_encoding.md R64): the values go to offsets 21, 16, 11 in signature order. -/
def packR : List Nat → Nat → Word
  | [], _ => 0
  | v :: ops, lo => putField5 lo v ||| packR ops (lo - 5)

/-- The operand bits of `Encode_I` (30_encoding.md R65): Register slots go to offsets 21, then 16, the Constant to 15:0. R65
places two Register slots; a third one, which no entry of the default catalog has, goes to offset 11, from where R55 extracts
it: DESIGN CHOICE (log 22), unsafe. -/
def packI : List Slot → List Nat → Nat → Word
  | .register :: sig, v :: ops, lo => putField5 lo v ||| packI sig ops (lo - 5)
  | .constant :: sig, v :: ops, lo => putField16 v ||| packI sig ops lo
  | _, _, _ => 0

/-- `Encode_R` and `Encode_I` of 30_encoding.md R64 and R65; nothing for an entry without a pair (R66). -/
def assemble (e : Entry) (ops : List Nat) : Option Word :=
  match e.code, e.family with
  | some c, .registerForm => some (c.pattern ||| packR ops 21)
  | some c, .immediateForm => some (c.pattern ||| packI e.signature ops 21)
  | none, _ => none

/-- The word of an instruction under the default catalog, where every entry has a pair (30_encoding.md R51); operand
values that do not fit their field are truncated (R64). -/
def encode (i : Instr) : Word := (assemble (entry i.op) i.operands).getD 0

/-- The host's question: the instruction the decoder reads from the word whose low `nbits` bits are `w`, every bit above
them 0. The instruction is one 32-bit word handed over whole (30_encoding.md R45), so there is no byte order to choose. -/
def decodeTableWord (nbits w : Nat) : Option Instr := decode (BitVec.ofNat 32 (w % 2 ^ nbits))

end Sys2Proof
end

