-- ==== Sys2Proof/Machine/State.lean ====
section
/-! DEFINITION. The state of the machine as plain data, why an instruction fails, what a transaction hands to the host,
and the state at construction (10_state.md, 40_dispatch.md R70 and R71, 60_exceptions.md R150). -/

namespace Sys2Proof.Machine

/-- The fault kinds of 60_exceptions.md R150, with the information each carries. A fault ends its transaction and nothing
more: the core is left exactly as it was and goes on (R156, R158). So the model takes every fault as a NEXT state with the
kind in `State.outcome` (log 1), and no step of the model answers `Host.Outcome.fault`. Each constructor is exact, hence
safe: it neither stops a run nor adds a behaviour. -/
inductive Fault where
  /-- R151. Raised by `div` and `mod` when the divisor is 0. Safe. -/
  | arithmeticError
  /-- R152. Raised by `lw`, `sw` and `pkm` at a cell address outside the memory; carries the exact address. Safe. -/
  | boundsError (address : Nat)
  /-- R153. Raised by `stpop` on an empty stack. Safe. -/
  | stackUnderflow
  /-- R154. Raised by every instruction with a Register slot, before its operation, when a Register operand is 30 or
  more. Safe. -/
  | registerIndexFault
  /-- R155. Raised by the text front end alone when the operands do not fit the signature; carries the offending text
  (log 8). Safe. -/
  | parseError (offending : Text)
  /-- R160. Raised by `stpush` and `stpushi` when `STACK_DEPTH` is finite and the stack is full. Safe. -/
  | stackOverflow
deriving DecidableEq, Repr

/-- Why the model gives an instruction no meaning. -/
inductive Refusal where
  /-- Raised by `exec` for an instruction without a meaning; every instruction of the table has one, so no step raises it.
  Safe. -/
  | notModelled (mnemonic : String)
deriving DecidableEq, Repr

/-- The outcome of a transaction (40_dispatch.md R71). -/
inductive TxOutcome where
  /-- The instruction completed and returned this value, if any. -/
  | done (ret : Option Word)
  /-- Nothing matched and nothing happened; not a fault (60_exceptions.md R161). -/
  | noInstruction
  /-- The instruction failed. -/
  | fault (kind : Fault)
deriving DecidableEq, Repr

/-- What the host presents: a word to the transaction port (40_dispatch.md R72) or a text to the front end (R74). -/
inductive Request where
  | word (w : Word)
  | text (t : Text)
deriving DecidableEq, Repr

/-- Memory: (cell address, value) pairs, addresses strictly rising, no value equal to what an unlisted cell reads as
(log 5). A cell is the smallest addressable unit (20_memory.md R30, R36). -/
abbrev Memory := List (Nat × Word)

/-- The canonical form of a memory. -/
abbrev Memory.wf (m : Memory) : Prop :=
  m.Pairwise (fun a b => a.1 < b.1) ∧ ∀ c ∈ m, c.2 ≠ Config.unwrittenCell

/-- The state. The first four fields are the whole state of the core (10_state.md R10); the last three are the model's:
what the port last reported, what the host is going to present, and the core's parameters, which no step writes. -/
structure State where
  /-- Registers 1 to 29 (10_state.md R11); position `k` is register `k + 1`. Register 0 is hardwired and has no storage
  (R12, R13): `State.reg` and `State.setReg` are the only way in. -/
  gpr : Vector Word 29
  /-- The memory (10_state.md R23). -/
  mem : Memory
  /-- The stack (10_state.md R22), top first: integers without a width of their own. -/
  stack : List Nat
  /-- The program counter (10_state.md R16), a natural number without a bound. -/
  pc : Nat
  /-- The outputs of the transaction port (40_dispatch.md R70): the outcome of the last transaction (logs 1, 12). -/
  outcome : Option TxOutcome
  /-- What the host presents next, and after that (log 2). -/
  requests : List Request
  /-- The parameters of this core, its catalog among them (00_scope.md R5, log 3). -/
  params : Params
deriving DecidableEq, Repr

/-- Construction of a core, the only reset there is (10_state.md R25, 70_reset_and_hazards.md R170, R171), for any
value of each parameter of 00_scope.md R5 (`MEM_CELLS`, `STACK_DEPTH` and `CATALOG` are `p`): the stack is empty, and the host has presented nothing. -/
def State.construct (p : Params) (initRegs : Vector Word 29) (initMem : Memory) (initPc : Nat) : State :=
  { gpr := initRegs, mem := initMem, stack := [], pc := initPc, outcome := none, requests := [], params := p }

/-- The machine right after construction with every parameter at the spec's default (10_state.md R25). -/
def State.reset : State := State.construct Params.default Config.initRegs [] Config.initPc

end Sys2Proof.Machine
end

