-- ==== Sys2Proof/Machine/Ops.lean ====
section
/-! DEFINITION. The named operations that the meanings share: width masking, registers, memory, stack, and the ways a
transaction ends, taking a fault among them (00_scope.md R7 and R8, 10_state.md, 20_memory.md, 40_dispatch.md R76,
60_exceptions.md R156 to R158). -/

namespace Sys2Proof.Machine

/-- `mask_32(v)`: any integer modulo 2^32 (00_scope.md R8). -/
def mask32 (v : Int) : Word := BitVec.ofInt 32 v

/-! ### Registers (10_state.md R12, R13) -/

/-- The place of a register among registers 1 to 29. -/
theorem regIdx_slot (i : RegIdx) : i.val - 1 < 29 := by
  have := i.isLt
  simp only [numRegs] at this
  omega

/-- `x[i]`: 0 for register 0, the stored value otherwise (10_state.md R12). -/
def State.reg (st : State) (i : RegIdx) : Word :=
  if i.val = 0 then 0 else st.gpr[i.val - 1]'(regIdx_slot i)

/-- `x[i] <- v` for any integer `v`: discarded for register 0, masked to 32 bits otherwise (10_state.md R13). -/
def State.setReg (i : RegIdx) (v : Int) (st : State) : State :=
  if i.val = 0 then st else { st with gpr := st.gpr.set (i.val - 1) (mask32 v) (regIdx_slot i) }

/-! ### Memory (20_memory.md R32, R33) -/

/-- The value of a cell: the listed one, or what an unlisted cell reads as. -/
def Memory.read : Memory → Nat → Word
  | [], _ => Config.unwrittenCell
  | (b, v) :: m, a => if b = a then v else Memory.read m a

/-- The memory without an entry for the cell. -/
def Memory.erase : Memory → Nat → Memory
  | [], _ => []
  | (b, v) :: m, a => if b = a then Memory.erase m a else (b, v) :: Memory.erase m a

/-- The memory with an entry for the cell, at its place in the order of the addresses. -/
def Memory.insert : Memory → Nat → Word → Memory
  | [], a, v => [(a, v)]
  | (b, u) :: m, a, v =>
    if a < b then (a, v) :: (b, u) :: m
    else if a = b then (a, v) :: m
    else (b, u) :: Memory.insert m a v

/-- The memory after a write of one cell, in canonical form: writing what an unlisted cell reads as removes the entry. -/
def Memory.write (m : Memory) (a : Nat) (v : Word) : Memory :=
  if v = Config.unwrittenCell then m.erase a else m.insert a v

/-- `MemRead(addr, 32)` (20_memory.md R32). -/
def memRead (addr : Nat) (st : State) : Except Fault Word :=
  if addr < st.params.memCells then .ok (st.mem.read addr) else .error (.boundsError addr)

/-- `MemWrite(addr, 32, v)` (20_memory.md R33). -/
def memWrite (addr : Nat) (v : Int) (st : State) : Except Fault State :=
  if addr < st.params.memCells then .ok { st with mem := st.mem.write addr (mask32 v) }
  else .error (.boundsError addr)

/-! ### The stack (10_state.md R20, R21) -/

/-- The stack holds as many entries as a finite `STACK_DEPTH` allows. -/
def State.stackFull (st : State) : Bool :=
  match st.params.stackDepth with
  | none => false
  | some n => decide (n ≤ st.stack.length)

/-- `Push(v)` (10_state.md R20). -/
def push (v : Nat) (st : State) : Except Fault State :=
  if st.stackFull then .error .stackOverflow else .ok { st with stack := v :: st.stack }

/-- `Pop()` (10_state.md R21): the top entry and the state without it. -/
def pop (st : State) : Except Fault (Nat × State) :=
  match st.stack with
  | [] => .error .stackUnderflow
  | v :: rest => .ok (v, { st with stack := rest })

/-! ### The ends of a transaction (40_dispatch.md R71, R76) -/

/-- `Done(ret)`: the state the operation reached, and the value it returns to the host, if any. -/
def complete (ret : Option Word) (st : State) : Host.Outcome State Fault Refusal :=
  .next { st with outcome := some (.done ret) }

/-- TAKING A FAULT, for every instruction (60_exceptions.md R156, R157; 40_dispatch.md R77): `st` is the state before the
transaction; nothing of it changes, no handler runs, and the host receives the kind. There is no return from a fault to
model: the next transaction starts from this state (R158). -/
def raise (f : Fault) (st : State) : Host.Outcome State Fault Refusal :=
  .next { st with outcome := some (.fault f) }

/-- `NoInstruction`: the identity on the core (40_dispatch.md R79). -/
def skip (st : State) : Host.Outcome State Fault Refusal :=
  .next { st with outcome := some .noInstruction }

/-- The last lines of `Invoke` for an operation that returns nothing (40_dispatch.md R76): the state it reached, or the
fault it raised with the state `st` from before it. -/
def finish (st : State) (r : Except Fault State) : Host.Outcome State Fault Refusal :=
  match r with
  | .ok st' => complete none st'
  | .error f => raise f st

end Sys2Proof.Machine
end

