-- ==== Sys2Proof/Machine/Operands.lean ====
section
/-! DEFINITION. Operands: the validation of Register operands, the values an operation reads, and the one addressing mode
(40_dispatch.md R73, R78; 20_memory.md R31; 30_encoding.md R56). -/

namespace Sys2Proof.Machine

/-- Validation of one Register operand (40_dispatch.md R73): an index of 30 or more is `RegisterIndexFault`. `st` is the
state before the instruction, and the operation `k` starts only after every operand is valid. -/
def withReg (i : Nat) (st : State) (k : RegIdx → Host.Outcome State Fault Refusal) : Host.Outcome State Fault Refusal :=
  if h : i < numRegs then k ⟨i, h⟩ else raise .registerIndexFault st

/-- Validation of two Register operands. -/
def withRegs2 (a b : Nat) (st : State) (k : RegIdx → RegIdx → Host.Outcome State Fault Refusal) :
    Host.Outcome State Fault Refusal :=
  withReg a st fun a => withReg b st fun b => k a b

/-- Validation of three Register operands. -/
def withRegs3 (a b c : Nat) (st : State) (k : RegIdx → RegIdx → RegIdx → Host.Outcome State Fault Refusal) :
    Host.Outcome State Fault Refusal :=
  withReg a st fun a => withReg b st fun b => withReg c st fun c => k a b c

/-- The value of a register as the unsigned integer the rules compute with (10_state.md R12). -/
def State.val (st : State) (i : RegIdx) : Nat := (st.reg i).toNat

/-- The effective address of `lw` and `sw`: base register plus unsigned offset, exact, never wrapped (20_memory.md R31,
log 9). -/
def effAddr (base : RegIdx) (offset : Const) (st : State) : Nat := st.val base + offset.toNat

/-- The one register write of an instruction, after every read (40_dispatch.md R78), and its completion. -/
def writeBack (d : RegIdx) (v : Int) (st : State) : Host.Outcome State Fault Refusal :=
  complete none (st.setReg d v)

/-- A register-form operation `x[d] <- f(x[s], x[t])`, exact over the integers and masked once at the write
(41_arithmetic.md R92 (a)). -/
def regRegOp (f : Nat → Nat → Int) (d s t : Nat) (st : State) : Host.Outcome State Fault Refusal :=
  withRegs3 d s t st fun d s t => writeBack d (f (st.val s) (st.val t)) st

/-- An operation `x[d] <- f(x[s], C)` with an unsigned constant (30_encoding.md R56). -/
def regConstOp (f : Nat → Nat → Int) (d s : Nat) (C : Const) (st : State) : Host.Outcome State Fault Refusal :=
  withRegs2 d s st fun d s => writeBack d (f (st.val s) C.toNat) st

/-- A division `x[d] <- f(x[s], x[t])`: a zero divisor is `ArithmeticError`, whatever `d` is (41_arithmetic.md R90, R91). -/
def divisionOp (f : Nat → Nat → Int) (d s t : Nat) (st : State) : Host.Outcome State Fault Refusal :=
  withRegs3 d s t st fun d s t =>
    if st.val t = 0 then raise .arithmeticError st else writeBack d (f (st.val s) (st.val t)) st

end Sys2Proof.Machine
end

