-- ==== Sys2Proof/Machine/Arithmetic.lean ====
section
/-! DEFINITION. Integer arithmetic: `add`, `sub`, `addi`, `mult`, `fma`, `div`, `mod` (41_arithmetic.md). -/

namespace Sys2Proof.Machine

/-- `add d, s, t` (R85). -/
def execAdd (d s t : Nat) (st : State) : Host.Outcome State Fault Refusal :=
  regRegOp (fun a b => (a : Int) + b) d s t st

/-- `sub d, s, t` (R86): the exact difference may be negative, the write masks it. -/
def execSub (d s t : Nat) (st : State) : Host.Outcome State Fault Refusal :=
  regRegOp (fun a b => (a : Int) - b) d s t st

/-- `addi t, s, C` (R87): the constant is unsigned, the destination is the first operand. -/
def execAddi (t s : Nat) (C : Const) (st : State) : Host.Outcome State Fault Refusal :=
  regConstOp (fun a c => (a : Int) + c) t s C st

/-- `mult d, s, t` (R88): the write keeps the low 32 bits of the product. -/
def execMult (d s t : Nat) (st : State) : Host.Outcome State Fault Refusal :=
  regRegOp (fun a b => (a : Int) * b) d s t st

/-- `fma d, s, t` (R89): `d` is read and written. -/
def execFma (d s t : Nat) (st : State) : Host.Outcome State Fault Refusal :=
  withRegs3 d s t st fun d s t => writeBack d ((st.val d : Int) + st.val s * st.val t) st

/-- `div d, s, t` (R90): the unsigned quotient, rounded down. -/
def execDiv (d s t : Nat) (st : State) : Host.Outcome State Fault Refusal :=
  divisionOp (fun a b => ((a / b : Nat) : Int)) d s t st

/-- `mod d, s, t` (R91): the unsigned remainder. -/
def execMod (d s t : Nat) (st : State) : Host.Outcome State Fault Refusal :=
  divisionOp (fun a b => ((a % b : Nat) : Int)) d s t st

end Sys2Proof.Machine
end

