-- ==== Sys2Proof/Machine/Control.lean ====
section
/-! DEFINITION. Control transfer: `jal`, `jr`, `j` (45_control.md). A jump changes the number in `pc` and nothing else;
the next instruction is what the host presents next. -/

namespace Sys2Proof.Machine

/-- `ra`, the register that `jal` writes: register 1 (10_state.md R14, log 13). -/
def ra : RegIdx := ⟨1, by decide⟩

/-- `jal C` (R130): the link is the old pc plus 1, masked by the write; the target is absolute. -/
def execJal (C : Const) (st : State) : Host.Outcome State Fault Refusal :=
  complete none { st.setReg ra ((st.pc : Int) + 1) with pc := C.toNat }

/-- `jr r` (R131): any 32-bit value is a legal pc. -/
def execJr (r : Nat) (st : State) : Host.Outcome State Fault Refusal :=
  withReg r st fun r => complete none { st with pc := st.val r }

/-- `j C` (R132): relative to the pc of the `j` itself, forward only, and the pc has no width to wrap at. -/
def execJ (C : Const) (st : State) : Host.Outcome State Fault Refusal :=
  complete none { st with pc := st.pc + C.toNat }

end Sys2Proof.Machine
end

