-- ==== Sys2Proof/Machine/DataMovement.lean ====
section
/-! DEFINITION. Load-immediate, load and store: `li`, `lw`, `sw` (43_data_movement.md). -/

namespace Sys2Proof.Machine

/-- `li rd, C` (R115). -/
def execLi (rd : Nat) (C : Const) (st : State) : Host.Outcome State Fault Refusal :=
  withReg rd st fun rd => writeBack rd C.toNat st

/-- `lw t, C, s` (R116): the read happens, and can fault, for `t = 0` too. -/
def execLw (t : Nat) (C : Const) (s : Nat) (st : State) : Host.Outcome State Fault Refusal :=
  withRegs2 t s st fun t s =>
    match memRead (effAddr s C st) st with
    | .ok v => writeBack t v.toNat st
    | .error f => raise f st

/-- `sw t, C, s` (R117): `t` is the register stored, a source. -/
def execSw (t : Nat) (C : Const) (s : Nat) (st : State) : Host.Outcome State Fault Refusal :=
  withRegs2 t s st fun t s => finish st (memWrite (effAddr s C st) (st.val t) st)

end Sys2Proof.Machine
end

