-- ==== Sys2Proof/Machine/LogicShift.lean ====
section
/-! DEFINITION. Bitwise and shift instructions: `and`, `or`, `xor`, `andi`, `ori`, `sll`, `srl` (42_logic_shift.md). -/

namespace Sys2Proof.Machine

/-- `and d, s, t` (R100). -/
def execAnd (d s t : Nat) (st : State) : Host.Outcome State Fault Refusal :=
  regRegOp (fun a b => ((a &&& b : Nat) : Int)) d s t st

/-- `or d, s, t` (R101). -/
def execOr (d s t : Nat) (st : State) : Host.Outcome State Fault Refusal :=
  regRegOp (fun a b => ((a ||| b : Nat) : Int)) d s t st

/-- `xor d, s, t` (R102). -/
def execXor (d s t : Nat) (st : State) : Host.Outcome State Fault Refusal :=
  regRegOp (fun a b => ((a ^^^ b : Nat) : Int)) d s t st

/-- `andi t, s, C` (R103): the constant is zero-extended. -/
def execAndi (t s : Nat) (C : Const) (st : State) : Host.Outcome State Fault Refusal :=
  regConstOp (fun a c => ((a &&& c : Nat) : Int)) t s C st

/-- `ori t, s, C` (R104): the constant is zero-extended. -/
def execOri (t s : Nat) (C : Const) (st : State) : Host.Outcome State Fault Refusal :=
  regConstOp (fun a c => ((a ||| c : Nat) : Int)) t s C st

/-- `sll d, t, C` (R105): left, by the whole of `C` (R107); the direction is the mnemonic's (PRESUMED, log 10). -/
def execSll (d t : Nat) (C : Const) (st : State) : Host.Outcome State Fault Refusal :=
  regConstOp (fun a c => ((a <<< c : Nat) : Int)) d t C st

/-- `srl d, t, C` (R106): right, zeros enter at the top, by the whole of `C` (R107); the direction is the mnemonic's
(PRESUMED, log 10). -/
def execSrl (d t : Nat) (C : Const) (st : State) : Host.Outcome State Fault Refusal :=
  regConstOp (fun a c => ((a >>> c : Nat) : Int)) d t C st

end Sys2Proof.Machine
end

