-- ==== Sys2Proof/Machine/Peek.lean ====
section
/-! DEFINITION. Peek instructions, which return a value to the host and change nothing: `pkr`, `pkm` (46_peek.md). -/

namespace Sys2Proof.Machine

/-- `pkr r` (R138). -/
def execPkr (r : Nat) (st : State) : Host.Outcome State Fault Refusal :=
  withReg r st fun r => complete (some (st.reg r)) st

/-- `pkm C` (R139): the constant alone is the address. -/
def execPkm (C : Const) (st : State) : Host.Outcome State Fault Refusal :=
  match memRead C.toNat st with
  | .ok v => complete (some v) st
  | .error f => raise f st

end Sys2Proof.Machine
end

