-- ==== Sys2Proof/Machine/Stack.lean ====
section
/-! DEFINITION. Stack instructions: `stpush`, `stpop`, `stpushi` (44_stack.md). -/

namespace Sys2Proof.Machine

/-- `stpush r` (R122). -/
def execStpush (r : Nat) (st : State) : Host.Outcome State Fault Refusal :=
  withReg r st fun r => finish st (push (st.val r) st)

/-- `stpop rd` (R123): the entry leaves the stack for `rd = 0` too. -/
def execStpop (rd : Nat) (st : State) : Host.Outcome State Fault Refusal :=
  withReg rd st fun rd =>
    match pop st with
    | .ok (v, st') => writeBack rd v st'
    | .error f => raise f st

/-- `stpushi C` (R124). -/
def execStpushi (C : Const) (st : State) : Host.Outcome State Fault Refusal :=
  finish st (push C.toNat st)

end Sys2Proof.Machine
end

