-- ==== Sys2Proof/Machine/Dispatch.lean ====
section
/-! DEFINITION. The dispatch of an instruction to its meaning, one arm per constructor (40_dispatch.md R76). -/

namespace Sys2Proof.Machine

def exec (i : Instr) (st : State) : Host.Outcome State Fault Refusal :=
  match i with
  | .add d s t => Sys2Proof.Machine.execAdd d s t st
  | .sub d s t => Sys2Proof.Machine.execSub d s t st
  | .addi t s C => Sys2Proof.Machine.execAddi t s C st
  | .mult d s t => Sys2Proof.Machine.execMult d s t st
  | .fma d s t => Sys2Proof.Machine.execFma d s t st
  | .div d s t => Sys2Proof.Machine.execDiv d s t st
  | .mod d s t => Sys2Proof.Machine.execMod d s t st
  | .and d s t => Sys2Proof.Machine.execAnd d s t st
  | .or d s t => Sys2Proof.Machine.execOr d s t st
  | .xor d s t => Sys2Proof.Machine.execXor d s t st
  | .andi t s C => Sys2Proof.Machine.execAndi t s C st
  | .ori t s C => Sys2Proof.Machine.execOri t s C st
  | .sll d t C => Sys2Proof.Machine.execSll d t C st
  | .srl d t C => Sys2Proof.Machine.execSrl d t C st
  | .li rd C => Sys2Proof.Machine.execLi rd C st
  | .lw t C s => Sys2Proof.Machine.execLw t C s st
  | .sw t C s => Sys2Proof.Machine.execSw t C s st
  | .stpush r => Sys2Proof.Machine.execStpush r st
  | .stpop rd => Sys2Proof.Machine.execStpop rd st
  | .stpushi C => Sys2Proof.Machine.execStpushi C st
  | .jal C => Sys2Proof.Machine.execJal C st
  | .jr r => Sys2Proof.Machine.execJr r st
  | .j C => Sys2Proof.Machine.execJ C st
  | .pkr r => Sys2Proof.Machine.execPkr r st
  | .pkm C => Sys2Proof.Machine.execPkm C st

end Sys2Proof.Machine
end

