-- ==== Sys2Proof/Machine/Text.lean ====
section
/-! DEFINITION. The text form: splitting, operand tokens, and the assembler `compile_text` (30_encoding.md R58 to R66,
40_dispatch.md R75). Every function here is pure and recurses on the text. -/

namespace Sys2Proof.Machine

/-! ### Splitting (R58, R60) -/

/-- White space around a text or a token: space, tab, line feed, carriage return. DESIGN CHOICE (log 7). -/
def isWhite (c : Char) : Bool := c == ' ' || c == '\t' || c == '\n' || c == '\r'

/-- A text without its leading and trailing white space (R58, R60). -/
def trim (t : Text) : Text := ((t.dropWhile isWhite).reverse.dropWhile isWhite).reverse

/-- The mnemonic, which is the text before the first space, and the operand string after it (R58). -/
def splitMnemonic (line : Text) : Text × Text :=
  let l := trim line
  (l.takeWhile (· != ' '), l.dropWhile (· != ' '))

/-- The pieces of an operand string between its commas (R60). -/
def splitCommas : Text → List Text
  | [] => [[]]
  | c :: cs =>
    if c = ',' then [] :: splitCommas cs
    else
      match splitCommas cs with
      | [] => [[c]]
      | t :: ts => (c :: t) :: ts

/-- The operand tokens: the pieces, each trimmed (R60). -/
def tokens (operandString : Text) : List Text := (splitCommas operandString).map trim

/-! ### Tokens (R61, R62) -/

/-- The value of a digit string after the value `acc` of the digits before it; nothing at a character that is no digit. -/
def digitsFrom : Nat → Text → Option Nat
  | acc, [] => some acc
  | acc, c :: cs => if c.isDigit then digitsFrom (10 * acc + (c.toNat - '0'.toNat)) cs else none

/-- `[0-9]+` as a decimal number. -/
def decimal : Text → Option Nat
  | [] => none
  | c :: cs => digitsFrom 0 (c :: cs)

/-- The symbolic names of registers 0 to 27, in the order of their indices (10_state.md R14, log 13). -/
def registerNames : List Text :=
  ["zero".toList, "ra".toList, "v0".toList, "v1".toList, "a0".toList, "a1".toList, "a2".toList, "a3".toList,
   "t0".toList, "t1".toList, "t2".toList, "t3".toList, "t4".toList, "t5".toList, "t6".toList, "t7".toList,
   "t8".toList, "t9".toList, "s0".toList, "s1".toList, "s2".toList, "s3".toList, "s4".toList, "s5".toList,
   "s6".toList, "s7".toList, "s8".toList, "s9".toList]

/-- The index of a symbolic register name (10_state.md R14). -/
def registerIndex (name : Text) : Option Nat := registerNames.findIdx? (· == name)

/-- A Register token: `$` and a known name or an unsigned decimal index, which is not range-checked here (R61). -/
def parseRegister : Text → Option Nat
  | '$' :: rest =>
    match registerIndex rest with
    | some i => some i
    | none => decimal rest
  | _ => none

/-- A Constant token: decimal digits with an optional leading minus sign, masked to 16 bits (R62). -/
def parseConstant : Text → Option Const
  | '-' :: digits => (decimal digits).map fun n => BitVec.ofInt 16 (-(n : Int))
  | digits => (decimal digits).map fun n => BitVec.ofNat 16 n

/-- The operand value of a token in a slot (R61, R62). -/
def parseOperand : Slot → Text → Option Nat
  | .register, token => parseRegister token
  | .constant, token => (parseConstant token).map BitVec.toNat

/-- The operand values of tokens in the slots of a signature; the first token that does not fit its slot is the
offending text (R63, log 8). The caller has checked that there are as many tokens as slots. -/
def parseTokens : List Slot → List Text → Except Fault (List Nat)
  | slot :: sig, token :: rest =>
    match parseOperand slot token with
    | none => .error (.parseError token)
    | some v =>
      match parseTokens sig rest with
      | .error f => .error f
      | .ok ops => .ok (v :: ops)
  | _, _ => .ok []

/-- `Parse(signature, operand string)`: exactly as many tokens as slots, or a ParseError (R60, R63). -/
def parseOperands (sig : List Slot) (operandString : Text) : Except Fault (List Nat) :=
  if (tokens operandString).length = sig.length then parseTokens sig (tokens operandString)
  else .error (.parseError operandString)

/-! ### Lookup, assembling (R59, R66) -/

/-- The catalog entry of a mnemonic, by exact name (R59). -/
def lookupMnemonic (cat : List Entry) (m : Text) : Option Entry := cat.find? fun e => e.op.mnemonic == m

/-- `compile_text` over any catalog (R66, 40_dispatch.md R75): nothing for an unknown mnemonic or an entry without a pair,
a ParseError, or the word. It reads and writes no machine state. -/
def compileText (cat : List Entry) (line : Text) : Except Fault (Option Word) :=
  match lookupMnemonic cat (splitMnemonic line).1 with
  | none => .ok none
  | some e =>
    match e.code with
    | none => .ok none
    | some _ =>
      match parseOperands e.signature (splitMnemonic line).2 with
      | .error f => .error f
      | .ok ops => .ok (assemble e ops)

/-- What the text front end makes of a text, over any catalog: no entry for its mnemonic, or the instruction of its entry with
the operand values as parsed, or a ParseError (40_dispatch.md R74). -/
def parseText (cat : List Entry) (line : Text) : Except Fault (Option Instr) :=
  match lookupMnemonic cat (splitMnemonic line).1 with
  | none => .ok none
  | some e =>
    match parseOperands e.signature (splitMnemonic line).2 with
    | .error f => .error f
    | .ok ops => .ok (e.op.build ops)

end Sys2Proof.Machine
end

