-- ==== Sys2Proof/Machine/Transaction.lean ====
section
/-! DEFINITION. The transactions: executing a word, executing a text, and the outputs of the transaction port
(40_dispatch.md R70 to R76, 60_exceptions.md R150). -/

namespace Sys2Proof.Machine

/-- `ExecuteWord(σ, word)` (40_dispatch.md R72): decode by the core's own catalog, extract, invoke; an unmatched word is skipped (R79). -/
def executeWord (w : Word) (st : State) : Host.Outcome State Fault Refusal :=
  match decodeWith st.params.catalog w with
  | some i => exec i st
  | none => skip st

/-- `ExecuteText(σ, text)` (40_dispatch.md R74), by the core's own catalog: the operands reach the operation as parsed, not through the encoder. -/
def executeText (line : Text) (st : State) : Host.Outcome State Fault Refusal :=
  match parseText st.params.catalog line with
  | .error f => raise f st
  | .ok none => skip st
  | .ok (some i) => exec i st

/-- One transaction: a request of the host, run to completion (40_dispatch.md R70). -/
def transact (r : Request) (st : State) : Host.Outcome State Fault Refusal :=
  match r with
  | .word w => executeWord w st
  | .text t => executeText t st

/-- The presentation of one request: it leaves the host's list when its transaction starts; with nothing to present the
core is idle and nothing changes (60_exceptions.md R168, 46_peek.md R140, log 2). -/
def serve (st : State) : Host.Outcome State Fault Refusal :=
  match st.requests with
  | [] => .next st
  | r :: rest => transact r { st with requests := rest }

/-- The port output `status`, 3 bits (40_dispatch.md R70, 60_exceptions.md R150). -/
def TxOutcome.status : TxOutcome → BitVec 3
  | .done _ => 0
  | .noInstruction => 1
  | .fault .arithmeticError => 2
  | .fault (.boundsError _) => 3
  | .fault .stackUnderflow => 4
  | .fault .registerIndexFault => 5
  | .fault (.parseError _) => 6
  | .fault .stackOverflow => 7

/-- The port output `ret`: the returned value, and nothing where `ret_valid` is 0 and the wire is meaningless
(40_dispatch.md R70, log 11). -/
def TxOutcome.ret : TxOutcome → Option Word
  | .done r => r
  | .noInstruction => none
  | .fault _ => none

/-- The port output `ret_valid`, 1 bit (40_dispatch.md R70). -/
def TxOutcome.retValid (o : TxOutcome) : BitVec 1 := if o.ret.isSome then 1 else 0

end Sys2Proof.Machine
end

