-- ==== Sys2Proof/Machine/Step.lean ====
section
/-! DEFINITION. One step: one transaction (40_dispatch.md R70). -/

namespace Sys2Proof.Machine

/-- One step of the machine: the host's next request, run to completion; idle when there is none. -/
def step (st : State) : Host.Outcome State Fault Refusal := serve st

/-- The state in which the host presents, as its next request, the word whose low `nbits` bits are `w`, every bit above
them 0. The core fetches nothing: a word reaches it only from the host (10_state.md R17, log 2). -/
def State.withFetchWord (st : State) (nbits w : Nat) : State :=
  { st with requests := .word (BitVec.ofNat 32 (w % 2 ^ nbits)) :: st.requests }

end Sys2Proof.Machine
end

