-- ==== Sys2Proof/Safety.lean ====
section
/-! DEFINITION. What claims say of a run: the invariant of 10_state.md R26, and how a transaction left the core. -/

namespace Sys2Proof.Machine

/-- What holds after construction and after every transaction (10_state.md R26; `x[0] = 0` and the 32-bit ranges of
registers and cells hold by construction of the type): the parameters are ones that 00_scope.md R5 allows, the memory is in
canonical form and lists only cells that exist, the stack holds at most `STACK_DEPTH` entries, each below 2^32. -/
structure State.Inv (st : State) : Prop where
  params : st.params.wf
  memCanonical : st.mem.wf
  memInRange : ∀ c ∈ st.mem, c.1 < st.params.memCells
  stackInDepth : ∀ n, st.params.stackDepth = some n → st.stack.length ≤ n
  stackInWidth : ∀ v ∈ st.stack, v < 2 ^ 32

/-- The transaction of an instruction ended as `o` in the state `t`. -/
abbrev EndsIn (i : Instr) (st t : State) (o : TxOutcome) : Prop :=
  exec i st = .next t ∧ t.outcome = some o

/-- The instruction fails with `f` and leaves everything but the reported outcome as it was (60_exceptions.md R156). -/
abbrev FaultsWith (i : Instr) (st : State) (f : Fault) : Prop :=
  exec i st = .next { st with outcome := some (.fault f) }

/-- The fields that are not the core's state, but for the reported outcome: the host's list and the parameters. -/
abbrev SameSurroundings (st t : State) : Prop := t.requests = st.requests ∧ t.params = st.params

/-- Every register reads as before. -/
abbrev SameRegisters (st t : State) : Prop := ∀ j : RegIdx, t.reg j = st.reg j

/-- Every cell, in or out of the address space, reads as before. -/
abbrev SameMemory (st t : State) : Prop := ∀ a : Nat, t.mem.read a = st.mem.read a

/-- The frame of a register write of `v` to `d`: a write to register 0 is discarded, every other register, every cell,
the stack and the pc are as before (10_state.md R13, R17). -/
abbrev WritesRegister (st t : State) (d : RegIdx) (v : Word) : Prop :=
  (∀ j : RegIdx, t.reg j = if j = d ∧ d ≠ 0 then v else st.reg j) ∧
    SameMemory st t ∧ t.stack = st.stack ∧ t.pc = st.pc ∧ SameSurroundings st t

/-- The register that an instruction writes when it completes (10_state.md R15): the one its rule names, and register 1 for
`jal`. -/
def destination : Instr → Option Nat
  | .add d _ _ => some d
  | .sub d _ _ => some d
  | .addi t _ _ => some t
  | .mult d _ _ => some d
  | .fma d _ _ => some d
  | .div d _ _ => some d
  | .mod d _ _ => some d
  | .and d _ _ => some d
  | .or d _ _ => some d
  | .xor d _ _ => some d
  | .andi t _ _ => some t
  | .ori t _ _ => some t
  | .sll d _ _ => some d
  | .srl d _ _ => some d
  | .li rd _ => some rd
  | .lw t _ _ => some t
  | .sw _ _ _ => none
  | .stpush _ => none
  | .stpop rd => some rd
  | .stpushi _ => none
  | .jal _ => some 1
  | .jr _ => none
  | .j _ => none
  | .pkr _ => none
  | .pkm _ => none

/-- Nothing but the reported outcome changed. -/
abbrev OnlyReports (st t : State) : Prop := t = { st with outcome := t.outcome }

end Sys2Proof.Machine
end

