-- ==== Sys2Proof/Certificates/Slice0/Obligations.lean ====
section
/-! DEFINITION. The statements about the model, each a `def Obligations.<Name> : Prop`. `st` is the state before an
instruction, `u` the state after it. A Register operand written as a `RegIdx` is valid (below 30); one written as a `Nat` is
any. A register write names its value in 32-bit arithmetic, which wraps modulo 2^32. -/

open Sys2Proof Sys2Proof.Machine

/-! ### One statement for each rule of an instruction: its effect and its frame for every form, the faults it can raise, and
the words that encode it in the default catalog (00_scope.md R5). `RegisterIndexFault` is the spec's decision D13 (R73, R154) and
the encodings are its decisions D1 to D6 (R52), as the rule of each instruction states them. -/

/-- R85. `add d, s, t`: `reg[d] = reg[s] + reg[t]` modulo 2^32; a write to register 0 is discarded. -/
def Obligations.AddWritesTheSum : Prop :=
  (∀ (st : State) (d s t : RegIdx),
    ∃ u, EndsIn (.add d s t) st u (.done none) ∧ WritesRegister st u d (st.reg s + st.reg t)) ∧
  (∀ (st : State) (d s t : Nat), numRegs ≤ d ∨ numRegs ≤ s ∨ numRegs ≤ t →
    FaultsWith (.add d s t) st .registerIndexFault) ∧
  (∀ (w : Word) (d s t : Nat),
    decode w = some (.add d s t) ↔
      w &&& 0xFC0007FF = 0x00000001 ∧ d = (w.extractLsb' 21 5).toNat ∧ s = (w.extractLsb' 16 5).toNat ∧ t = (w.extractLsb' 11 5).toNat)

/-- R86. `sub d, s, t`: `reg[d] = reg[s] - reg[t]` modulo 2^32. The wrap of a negative difference is the spec's decision D17
(00_scope.md R8). -/
def Obligations.SubWritesTheDifference : Prop :=
  (∀ (st : State) (d s t : RegIdx),
    ∃ u, EndsIn (.sub d s t) st u (.done none) ∧ WritesRegister st u d (st.reg s - st.reg t)) ∧
  (∀ (st : State) (d s t : Nat), numRegs ≤ d ∨ numRegs ≤ s ∨ numRegs ≤ t →
    FaultsWith (.sub d s t) st .registerIndexFault) ∧
  (∀ (w : Word) (d s t : Nat),
    decode w = some (.sub d s t) ↔
      w &&& 0xFC0007FF = 0x00000002 ∧ d = (w.extractLsb' 21 5).toNat ∧ s = (w.extractLsb' 16 5).toNat ∧ t = (w.extractLsb' 11 5).toNat)

/-- R87. `addi t, s, C`: `reg[t] = reg[s] + C`, the constant unsigned. -/
def Obligations.AddiAddsTheUnsignedConstant : Prop :=
  (∀ (st : State) (t s : RegIdx) (C : Const),
    ∃ u, EndsIn (.addi t s C) st u (.done none) ∧ WritesRegister st u t (st.reg s + C.setWidth 32)) ∧
  (∀ (st : State) (t s : Nat) (C : Const), numRegs ≤ t ∨ numRegs ≤ s →
    FaultsWith (.addi t s C) st .registerIndexFault) ∧
  (∀ (w : Word) (t s : Nat) (C : Const),
    decode w = some (.addi t s C) ↔
      w &&& 0xFC000000 = 0x04000000 ∧ t = (w.extractLsb' 21 5).toNat ∧ s = (w.extractLsb' 16 5).toNat ∧ C = w.extractLsb' 0 16)

/-- R88. `mult d, s, t`: the low 32 bits of the product. -/
def Obligations.MultWritesTheLowProduct : Prop :=
  (∀ (st : State) (d s t : RegIdx),
    ∃ u, EndsIn (.mult d s t) st u (.done none) ∧ WritesRegister st u d (st.reg s * st.reg t)) ∧
  (∀ (st : State) (d s t : Nat), numRegs ≤ d ∨ numRegs ≤ s ∨ numRegs ≤ t →
    FaultsWith (.mult d s t) st .registerIndexFault) ∧
  (∀ (w : Word) (d s t : Nat),
    decode w = some (.mult d s t) ↔
      w &&& 0xFC0007FF = 0x00000003 ∧ d = (w.extractLsb' 21 5).toNat ∧ s = (w.extractLsb' 16 5).toNat ∧ t = (w.extractLsb' 11 5).toNat)

/-- R89. `fma d, s, t`: `reg[d] = reg[d] + reg[s] × reg[t]`, all reads before the write. -/
def Obligations.FmaAccumulatesTheProduct : Prop :=
  (∀ (st : State) (d s t : RegIdx),
    ∃ u, EndsIn (.fma d s t) st u (.done none) ∧ WritesRegister st u d (st.reg d + st.reg s * st.reg t)) ∧
  (∀ (st : State) (d s t : Nat), numRegs ≤ d ∨ numRegs ≤ s ∨ numRegs ≤ t →
    FaultsWith (.fma d s t) st .registerIndexFault) ∧
  (∀ (w : Word) (d s t : Nat),
    decode w = some (.fma d s t) ↔
      w &&& 0xFC0007FF = 0x00000004 ∧ d = (w.extractLsb' 21 5).toNat ∧ s = (w.extractLsb' 16 5).toNat ∧ t = (w.extractLsb' 11 5).toNat)

/-- R90. `div d, s, t`: the unsigned quotient, and `ArithmeticError` for a zero divisor whatever `d` is. Unsigned rounding and
the check for `d = 0` are the spec's decision D18. -/
def Obligations.DivWritesTheUnsignedQuotient : Prop :=
  (∀ (st : State) (d s t : RegIdx), st.reg t ≠ 0 →
    ∃ u, EndsIn (.div d s t) st u (.done none) ∧ WritesRegister st u d (BitVec.ofNat 32 ((st.reg s).toNat / (st.reg t).toNat))) ∧
  (∀ (st : State) (d s t : RegIdx), st.reg t = 0 → FaultsWith (.div d s t) st .arithmeticError) ∧
  (∀ (st : State) (d s t : Nat), numRegs ≤ d ∨ numRegs ≤ s ∨ numRegs ≤ t →
    FaultsWith (.div d s t) st .registerIndexFault) ∧
  (∀ (w : Word) (d s t : Nat),
    decode w = some (.div d s t) ↔
      w &&& 0xFC0007FF = 0x00000005 ∧ d = (w.extractLsb' 21 5).toNat ∧ s = (w.extractLsb' 16 5).toNat ∧ t = (w.extractLsb' 11 5).toNat)

/-- R91. `mod d, s, t`: the unsigned remainder, and `ArithmeticError` for a zero divisor. -/
def Obligations.ModWritesTheUnsignedRemainder : Prop :=
  (∀ (st : State) (d s t : RegIdx), st.reg t ≠ 0 →
    ∃ u, EndsIn (.mod d s t) st u (.done none) ∧ WritesRegister st u d (BitVec.ofNat 32 ((st.reg s).toNat % (st.reg t).toNat))) ∧
  (∀ (st : State) (d s t : RegIdx), st.reg t = 0 → FaultsWith (.mod d s t) st .arithmeticError) ∧
  (∀ (st : State) (d s t : Nat), numRegs ≤ d ∨ numRegs ≤ s ∨ numRegs ≤ t →
    FaultsWith (.mod d s t) st .registerIndexFault) ∧
  (∀ (w : Word) (d s t : Nat),
    decode w = some (.mod d s t) ↔
      w &&& 0xFC0007FF = 0x00000006 ∧ d = (w.extractLsb' 21 5).toNat ∧ s = (w.extractLsb' 16 5).toNat ∧ t = (w.extractLsb' 11 5).toNat)

/-- R100. `and d, s, t`. -/
def Obligations.AndWritesTheBitwiseAnd : Prop :=
  (∀ (st : State) (d s t : RegIdx),
    ∃ u, EndsIn (.and d s t) st u (.done none) ∧ WritesRegister st u d (st.reg s &&& st.reg t)) ∧
  (∀ (st : State) (d s t : Nat), numRegs ≤ d ∨ numRegs ≤ s ∨ numRegs ≤ t →
    FaultsWith (.and d s t) st .registerIndexFault) ∧
  (∀ (w : Word) (d s t : Nat),
    decode w = some (.and d s t) ↔
      w &&& 0xFC0007FF = 0x00000007 ∧ d = (w.extractLsb' 21 5).toNat ∧ s = (w.extractLsb' 16 5).toNat ∧ t = (w.extractLsb' 11 5).toNat)

/-- R101. `or d, s, t`. -/
def Obligations.OrWritesTheBitwiseOr : Prop :=
  (∀ (st : State) (d s t : RegIdx),
    ∃ u, EndsIn (.or d s t) st u (.done none) ∧ WritesRegister st u d (st.reg s ||| st.reg t)) ∧
  (∀ (st : State) (d s t : Nat), numRegs ≤ d ∨ numRegs ≤ s ∨ numRegs ≤ t →
    FaultsWith (.or d s t) st .registerIndexFault) ∧
  (∀ (w : Word) (d s t : Nat),
    decode w = some (.or d s t) ↔
      w &&& 0xFC0007FF = 0x00000008 ∧ d = (w.extractLsb' 21 5).toNat ∧ s = (w.extractLsb' 16 5).toNat ∧ t = (w.extractLsb' 11 5).toNat)

/-- R102. `xor d, s, t`. -/
def Obligations.XorWritesTheBitwiseXor : Prop :=
  (∀ (st : State) (d s t : RegIdx),
    ∃ u, EndsIn (.xor d s t) st u (.done none) ∧ WritesRegister st u d (st.reg s ^^^ st.reg t)) ∧
  (∀ (st : State) (d s t : Nat), numRegs ≤ d ∨ numRegs ≤ s ∨ numRegs ≤ t →
    FaultsWith (.xor d s t) st .registerIndexFault) ∧
  (∀ (w : Word) (d s t : Nat),
    decode w = some (.xor d s t) ↔
      w &&& 0xFC0007FF = 0x00000009 ∧ d = (w.extractLsb' 21 5).toNat ∧ s = (w.extractLsb' 16 5).toNat ∧ t = (w.extractLsb' 11 5).toNat)

/-- R103. `andi t, s, C`: the constant is zero-extended. -/
def Obligations.AndiMasksWithTheConstant : Prop :=
  (∀ (st : State) (t s : RegIdx) (C : Const),
    ∃ u, EndsIn (.andi t s C) st u (.done none) ∧ WritesRegister st u t (st.reg s &&& C.setWidth 32)) ∧
  (∀ (st : State) (t s : Nat) (C : Const), numRegs ≤ t ∨ numRegs ≤ s →
    FaultsWith (.andi t s C) st .registerIndexFault) ∧
  (∀ (w : Word) (t s : Nat) (C : Const),
    decode w = some (.andi t s C) ↔
      w &&& 0xFC000000 = 0x08000000 ∧ t = (w.extractLsb' 21 5).toNat ∧ s = (w.extractLsb' 16 5).toNat ∧ C = w.extractLsb' 0 16)

/-- R104. `ori t, s, C`: the constant is zero-extended. -/
def Obligations.OriSetsTheBitsOfTheConstant : Prop :=
  (∀ (st : State) (t s : RegIdx) (C : Const),
    ∃ u, EndsIn (.ori t s C) st u (.done none) ∧ WritesRegister st u t (st.reg s ||| C.setWidth 32)) ∧
  (∀ (st : State) (t s : Nat) (C : Const), numRegs ≤ t ∨ numRegs ≤ s →
    FaultsWith (.ori t s C) st .registerIndexFault) ∧
  (∀ (w : Word) (t s : Nat) (C : Const),
    decode w = some (.ori t s C) ↔
      w &&& 0xFC000000 = 0x0C000000 ∧ t = (w.extractLsb' 21 5).toNat ∧ s = (w.extractLsb' 16 5).toNat ∧ C = w.extractLsb' 0 16)

/-- R105, R107. `sll d, t, C`: left by the whole of `C`, so by 32 or more gives 0 (the spec's decision D16). That `sll` shifts left
is general knowledge, not the source's (K3, log 10). -/
def Obligations.SllShiftsLeftByTheWholeConstant : Prop :=
  (∀ (st : State) (d t : RegIdx) (C : Const),
    ∃ u, EndsIn (.sll d t C) st u (.done none) ∧ WritesRegister st u d (BitVec.ofNat 32 ((st.reg t).toNat * 2 ^ C.toNat))) ∧
  (∀ (st : State) (d t : Nat) (C : Const), numRegs ≤ d ∨ numRegs ≤ t →
    FaultsWith (.sll d t C) st .registerIndexFault) ∧
  (∀ (w : Word) (d t : Nat) (C : Const),
    decode w = some (.sll d t C) ↔
      w &&& 0xFC0007FF = 0x0000000A ∧ d = (w.extractLsb' 21 5).toNat ∧ t = (w.extractLsb' 16 5).toNat ∧ C.toNat = (w.extractLsb' 11 5).toNat)

/-- R106, R107. `srl d, t, C`: right by the whole of `C`, zeros from above, so by 32 or more gives 0 (the spec's decision D16).
That `srl` shifts right is general knowledge, not the source's (K3, log 10). -/
def Obligations.SrlShiftsRightByTheWholeConstant : Prop :=
  (∀ (st : State) (d t : RegIdx) (C : Const),
    ∃ u, EndsIn (.srl d t C) st u (.done none) ∧ WritesRegister st u d (BitVec.ofNat 32 ((st.reg t).toNat / 2 ^ C.toNat))) ∧
  (∀ (st : State) (d t : Nat) (C : Const), numRegs ≤ d ∨ numRegs ≤ t →
    FaultsWith (.srl d t C) st .registerIndexFault) ∧
  (∀ (w : Word) (d t : Nat) (C : Const),
    decode w = some (.srl d t C) ↔
      w &&& 0xFC0007FF = 0x0000000B ∧ d = (w.extractLsb' 21 5).toNat ∧ t = (w.extractLsb' 16 5).toNat ∧ C.toNat = (w.extractLsb' 11 5).toNat)

/-- R115. `li rd, C`: the constant zero-extended to 32 bits. -/
def Obligations.LiLoadsTheConstant : Prop :=
  (∀ (st : State) (rd : RegIdx) (C : Const),
    ∃ u, EndsIn (.li rd C) st u (.done none) ∧ WritesRegister st u rd (C.setWidth 32)) ∧
  (∀ (st : State) (rd : Nat) (C : Const), numRegs ≤ rd → FaultsWith (.li rd C) st .registerIndexFault) ∧
  (∀ (w : Word) (rd : Nat) (C : Const),
    decode w = some (.li rd C) ↔
      w &&& 0xFC1F0000 = 0x10000000 ∧ rd = (w.extractLsb' 21 5).toNat ∧ C = w.extractLsb' 0 16)

/-- R116. `lw t, C, s`: the cell at the exact sum of base and offset, or `BoundsError` with that address. -/
def Obligations.LwLoadsTheCell : Prop :=
  (∀ (st : State) (C : Const) (s : RegIdx), effAddr s C st = (st.reg s).toNat + C.toNat) ∧
  (∀ (st : State) (t : RegIdx) (C : Const) (s : RegIdx), effAddr s C st < st.params.memCells →
    ∃ u, EndsIn (.lw t C s) st u (.done none) ∧ WritesRegister st u t (st.mem.read (effAddr s C st))) ∧
  (∀ (st : State) (t : RegIdx) (C : Const) (s : RegIdx), st.params.memCells ≤ effAddr s C st →
    FaultsWith (.lw t C s) st (.boundsError (effAddr s C st))) ∧
  (∀ (st : State) (t : Nat) (C : Const) (s : Nat), numRegs ≤ t ∨ numRegs ≤ s →
    FaultsWith (.lw t C s) st .registerIndexFault) ∧
  (∀ (w : Word) (t : Nat) (C : Const) (s : Nat),
    decode w = some (.lw t C s) ↔
      w &&& 0xFC000000 = 0x14000000 ∧ t = (w.extractLsb' 21 5).toNat ∧ s = (w.extractLsb' 16 5).toNat ∧ C = w.extractLsb' 0 16)

/-- R117. `sw t, C, s`: one whole cell becomes `reg[t]`, every other cell and every register is as before, or `BoundsError`. -/
def Obligations.SwStoresTheRegister : Prop :=
  (∀ (st : State) (C : Const) (s : RegIdx), effAddr s C st = (st.reg s).toNat + C.toNat) ∧
  (∀ (st : State) (t : RegIdx) (C : Const) (s : RegIdx), effAddr s C st < st.params.memCells →
    ∃ u, EndsIn (.sw t C s) st u (.done none) ∧
      (∀ a : Nat, u.mem.read a = if a = effAddr s C st then st.reg t else st.mem.read a) ∧
      SameRegisters st u ∧ u.stack = st.stack ∧ u.pc = st.pc ∧ SameSurroundings st u) ∧
  (∀ (st : State) (t : RegIdx) (C : Const) (s : RegIdx), st.params.memCells ≤ effAddr s C st →
    FaultsWith (.sw t C s) st (.boundsError (effAddr s C st))) ∧
  (∀ (st : State) (t : Nat) (C : Const) (s : Nat), numRegs ≤ t ∨ numRegs ≤ s →
    FaultsWith (.sw t C s) st .registerIndexFault) ∧
  (∀ (w : Word) (t : Nat) (C : Const) (s : Nat),
    decode w = some (.sw t C s) ↔
      w &&& 0xFC000000 = 0x18000000 ∧ t = (w.extractLsb' 21 5).toNat ∧ s = (w.extractLsb' 16 5).toNat ∧ C = w.extractLsb' 0 16)

/-- R122. `stpush r`: a copy of the register becomes the new top; with a finite `STACK_DEPTH` a full stack is `StackOverflow`. -/
def Obligations.StpushPushesTheRegister : Prop :=
  (∀ (st : State) (r : RegIdx), (∀ n, st.params.stackDepth = some n → st.stack.length < n) →
    ∃ u, EndsIn (.stpush r) st u (.done none) ∧ u.stack = (st.reg r).toNat :: st.stack ∧
      SameRegisters st u ∧ SameMemory st u ∧ u.pc = st.pc ∧ SameSurroundings st u) ∧
  (∀ (st : State) (r : RegIdx) (n : Nat), st.params.stackDepth = some n → n ≤ st.stack.length →
    FaultsWith (.stpush r) st .stackOverflow) ∧
  (∀ (st : State) (r : Nat), numRegs ≤ r → FaultsWith (.stpush r) st .registerIndexFault) ∧
  (∀ (w : Word) (r : Nat),
    decode w = some (.stpush r) ↔
      w &&& 0xFC1FFFFF = 0x0000000C ∧ r = (w.extractLsb' 21 5).toNat)

/-- R123. `stpop rd`: the top leaves the stack, and its value is written; an empty stack is `StackUnderflow`. That the entry leaves
the stack for register 0 too is the spec's own inference, from R13 and R21. -/
def Obligations.StpopPopsIntoTheRegister : Prop :=
  (∀ (st : State) (rd : RegIdx) (v : Nat) (rest : List Nat), st.stack = v :: rest →
    ∃ u, EndsIn (.stpop rd) st u (.done none) ∧ u.stack = rest ∧
      (∀ j : RegIdx, u.reg j = if j = rd ∧ rd ≠ 0 then BitVec.ofNat 32 v else st.reg j) ∧
      SameMemory st u ∧ u.pc = st.pc ∧ SameSurroundings st u) ∧
  (∀ (st : State) (rd : RegIdx), st.stack = [] → FaultsWith (.stpop rd) st .stackUnderflow) ∧
  (∀ (st : State) (rd : Nat), numRegs ≤ rd → FaultsWith (.stpop rd) st .registerIndexFault) ∧
  (∀ (w : Word) (rd : Nat),
    decode w = some (.stpop rd) ↔
      w &&& 0xFC1FFFFF = 0x0000000D ∧ rd = (w.extractLsb' 21 5).toNat)

/-- R124. `stpushi C`: the constant as an unsigned integer becomes the new top; with a finite `STACK_DEPTH` a full stack is
`StackOverflow`. -/
def Obligations.StpushiPushesTheConstant : Prop :=
  (∀ (st : State) (C : Const), (∀ n, st.params.stackDepth = some n → st.stack.length < n) →
    ∃ u, EndsIn (.stpushi C) st u (.done none) ∧ u.stack = C.toNat :: st.stack ∧
      SameRegisters st u ∧ SameMemory st u ∧ u.pc = st.pc ∧ SameSurroundings st u) ∧
  (∀ (st : State) (C : Const) (n : Nat), st.params.stackDepth = some n → n ≤ st.stack.length →
    FaultsWith (.stpushi C) st .stackOverflow) ∧
  (∀ (w : Word) (C : Const),
    decode w = some (.stpushi C) ↔
      w &&& 0xFFFF0000 = 0x1C000000 ∧ C = w.extractLsb' 0 16)

/-- R130. `jal C`: register 1 becomes the old pc plus 1 modulo 2^32, the pc becomes `C`. That `ra` is register 1 is the spec's
decision D7 (log 13). -/
def Obligations.JalLinksAndJumps : Prop :=
  (∀ (st : State) (C : Const),
    ∃ u, EndsIn (.jal C) st u (.done none) ∧ u.pc = C.toNat ∧
      (∀ j : RegIdx, u.reg j = if j = 1 then BitVec.ofNat 32 (st.pc + 1) else st.reg j) ∧
      SameMemory st u ∧ u.stack = st.stack ∧ SameSurroundings st u) ∧
  (∀ (w : Word) (C : Const),
    decode w = some (.jal C) ↔
      w &&& 0xFFFF0000 = 0x20000000 ∧ C = w.extractLsb' 0 16)

/-- R131. `jr r`: the pc becomes the register's value, without an alignment or range check. -/
def Obligations.JrJumpsToTheRegister : Prop :=
  (∀ (st : State) (r : RegIdx),
    ∃ u, EndsIn (.jr r) st u (.done none) ∧ u.pc = (st.reg r).toNat ∧
      SameRegisters st u ∧ SameMemory st u ∧ u.stack = st.stack ∧ SameSurroundings st u) ∧
  (∀ (st : State) (r : Nat), numRegs ≤ r → FaultsWith (.jr r) st .registerIndexFault) ∧
  (∀ (w : Word) (r : Nat),
    decode w = some (.jr r) ↔
      w &&& 0xFC1FFFFF = 0x0000000E ∧ r = (w.extractLsb' 21 5).toNat)

/-- R132. `j C`: the pc moves forward by `C`, relative to the `j` itself, and never wraps: the pc without a width is the spec's
decision D10. -/
def Obligations.JumpsForwardByTheConstant : Prop :=
  (∀ (st : State) (C : Const),
    ∃ u, EndsIn (.j C) st u (.done none) ∧ u.pc = st.pc + C.toNat ∧
      SameRegisters st u ∧ SameMemory st u ∧ u.stack = st.stack ∧ SameSurroundings st u) ∧
  (∀ (w : Word) (C : Const),
    decode w = some (.j C) ↔
      w &&& 0xFFFF0000 = 0x24000000 ∧ C = w.extractLsb' 0 16)

/-- R138. `pkr r`: the register's value is returned to the host and nothing else changes. -/
def Obligations.PkrReturnsTheRegister : Prop :=
  (∀ (st : State) (r : RegIdx),
    ∃ u, EndsIn (.pkr r) st u (.done (some (st.reg r))) ∧ OnlyReports st u) ∧
  (∀ (st : State) (r : Nat), numRegs ≤ r → FaultsWith (.pkr r) st .registerIndexFault) ∧
  (∀ (w : Word) (r : Nat),
    decode w = some (.pkr r) ↔
      w &&& 0xFC1FFFFF = 0x0000000F ∧ r = (w.extractLsb' 21 5).toNat)

/-- R139. `pkm C`: the cell's value is returned to the host and nothing else changes, or `BoundsError` when `MEM_CELLS` is so
small. -/
def Obligations.PkmReturnsTheCell : Prop :=
  (∀ (st : State) (C : Const), C.toNat < st.params.memCells →
    ∃ u, EndsIn (.pkm C) st u (.done (some (st.mem.read C.toNat))) ∧ OnlyReports st u) ∧
  (∀ (st : State) (C : Const), st.params.memCells ≤ C.toNat → FaultsWith (.pkm C) st (.boundsError C.toNat)) ∧
  (∀ (w : Word) (C : Const),
    decode w = some (.pkm C) ↔
      w &&& 0xFFFF0000 = 0x28000000 ∧ C = w.extractLsb' 0 16)

/-! ### Registers, memory, construction -/

/-- R12, R13. Reading register 0 yields 0; a write to it changes nothing; a write of any integer to another register is
masked to 32 bits and leaves every other register as it was. -/
def Obligations.RegisterWritesAreMasked : Prop :=
  (∀ st : State, st.reg 0 = 0) ∧
  (∀ (st : State) (v : Int), st.setReg 0 v = st) ∧
  (∀ (st : State) (i : RegIdx) (v : Int), i ≠ 0 →
    (((st.setReg i v).reg i).toNat : Int) = v % 2 ^ 32 ∧
      (∀ j : RegIdx, j ≠ i → (st.setReg i v).reg j = st.reg j) ∧
      st.setReg i v = { st with gpr := (st.setReg i v).gpr })

/-- R32, R33. A read or write outside the memory is `BoundsError`; a write masks its value, and changes one cell. -/
def Obligations.MemoryAccessesAreBoundsChecked : Prop :=
  (∀ (st : State) (addr : Nat), addr < st.params.memCells → memRead addr st = .ok (st.mem.read addr)) ∧
  (∀ (st : State) (addr : Nat), st.params.memCells ≤ addr → memRead addr st = .error (.boundsError addr)) ∧
  (∀ (st : State) (addr : Nat) (v : Int), st.params.memCells ≤ addr → memWrite addr v st = .error (.boundsError addr)) ∧
  (∀ (st : State) (addr : Nat) (v : Int), addr < st.params.memCells →
    ∃ m, memWrite addr v st = .ok { st with mem := m } ∧
      ((m.read addr).toNat : Int) = v % 2 ^ 32 ∧ ∀ a : Nat, a ≠ addr → m.read a = st.mem.read a)

/-- The values at construction (10_state.md section 9): the parameters' values, an empty stack, and with the spec's defaults
zero in every register, every cell and the pc. The defaults are the spec's decision D11 and the model's choice (log 4). -/
def Obligations.ConstructionGivesTheInitialValues : Prop :=
  (∀ (p : Params) (regs : Vector Word 29) (m : Memory) (pc : Nat),
    (State.construct p regs m pc).reg 0 = 0 ∧
      (∀ k : Fin 29, (State.construct p regs m pc).reg ⟨k.val + 1, Nat.succ_lt_succ k.isLt⟩ = regs[k]) ∧
      (∀ a, (State.construct p regs m pc).mem.read a = m.read a) ∧
      (State.construct p regs m pc).pc = pc ∧ (State.construct p regs m pc).stack = [] ∧
      (State.construct p regs m pc).params = p) ∧
  (∀ j : RegIdx, State.reset.reg j = 0) ∧ (∀ a, State.reset.mem.read a = 0) ∧ State.reset.pc = 0 ∧
  State.reset.stack = [] ∧ State.reset.params.memCells = 655360 ∧ State.reset.params.stackDepth = none ∧
  State.reset.params.catalog = catalog

/-- R153. `stpop` on an empty stack is `StackUnderflow`, and so is the first `stpop` on a new core, whatever its parameters. -/
def Obligations.PopOnAFreshCoreUnderflows : Prop :=
  (∀ (st : State) (rd : RegIdx), st.stack = [] → FaultsWith (.stpop rd) st .stackUnderflow) ∧
  (∀ (p : Params) (regs : Vector Word 29) (m : Memory) (pc : Nat) (rd : RegIdx),
    FaultsWith (.stpop rd) (State.construct p regs m pc) .stackUnderflow)

/-- The invariant of 10_state.md R26 holds after construction, for every parameter that fits, and so at reset. -/
def Obligations.InvariantHoldsAtConstruction : Prop :=
  (∀ (p : Params) (regs : Vector Word 29) (m : Memory) (pc : Nat), p.wf → m.wf → (∀ c ∈ m, c.1 < p.memCells) →
    (State.construct p regs m pc).Inv) ∧
  State.reset.Inv

/-- R26: every step keeps the invariant: the memory in canonical form and within the cells that exist, at most
`STACK_DEPTH` stack entries, each below 2^32. -/
def Obligations.EveryStepKeepsTheInvariant : Prop :=
  ∀ st u : State, st.Inv → step st = .next u → u.Inv

/-! ### Transactions -/

/-- R72. Presented with a word (log 2: the next request of the host's list), a step is the meaning of the instruction that the
word decodes to by the core's own catalog, at the state without that request; a word that decodes to none is reported as such.
A core with the default catalog decodes as `decode` does. -/
def Obligations.StepRunsTheDecodedWord : Prop :=
  (∀ (st : State) (w : Word) (rest : List Request) (i : Instr),
    st.requests = .word w :: rest → decodeWith st.params.catalog w = some i →
      step st = exec i { st with requests := rest }) ∧
  (∀ (st : State) (w : Word) (rest : List Request),
    st.requests = .word w :: rest → decodeWith st.params.catalog w = none →
      step st = .next { st with requests := rest, outcome := some .noInstruction }) ∧
  (∀ w : Word, decodeWith State.reset.params.catalog w = decode w)

/-- R79. A word that matches no entry, or a text whose mnemonic is not in the catalog, changes nothing of the core, returns
nothing and is no fault. -/
def Obligations.UnmatchedRequestIsSkipped : Prop :=
  ∀ (st : State) (r : Request),
    ((∃ w, r = .word w ∧ ∀ e ∈ st.params.catalog, e.accepts w = false) ∨
      (∃ t, r = .text t ∧ ∀ e ∈ st.params.catalog, e.op.mnemonic ≠ (splitMnemonic t).1)) →
    ∃ u, transact r st = .next u ∧ u.outcome = some .noInstruction ∧ OnlyReports st u

/-- R74. A text with an unknown mnemonic is skipped; one with a known mnemonic runs the operation on the operand values as parsed,
or ends in the ParseError. The second clause is for every catalog that R5 allows and whose entries have the operand slots that
R52 gives their mnemonic; this slot condition is the model's deduction (log 21), and catalogs with other slots are left out. -/
def Obligations.ExecuteTextRunsTheParsedOperands : Prop :=
  (∀ (st : State) (line : Text), lookupMnemonic st.params.catalog (splitMnemonic line).1 = none →
    executeText line st = .next { st with outcome := some .noInstruction }) ∧
  ∀ (st : State) (line : Text) (e : Entry), CatalogWf st.params.catalog ∧ CatalogFits st.params.catalog →
    lookupMnemonic st.params.catalog (splitMnemonic line).1 = some e →
    (∀ f, parseOperands e.signature (splitMnemonic line).2 = .error f →
      executeText line st = .next { st with outcome := some (.fault f) } ∧ ∃ tok, f = .parseError tok) ∧
    (∀ ops, parseOperands e.signature (splitMnemonic line).2 = .ok ops →
      ∃ i : Instr, i.op = e.op ∧ i.operands = ops ∧ executeText line st = exec i st)

/-- R81, from the spec's own derivation: where every operand fits its field, assembling a text and executing the word is
executing the text, at every state of a core with the default catalog. -/
def Obligations.WordAndTextPathsAgree : Prop :=
  ∀ (line : Text) (i : Instr), parseText catalog line = .ok (some i) → i.wf = true →
    ∃ w, compileText catalog line = .ok (some w) ∧
      ∀ st : State, st.params.catalog = catalog → executeWord w st = executeText line st

/-- R66, R75. `compile_text` gives nothing for an entry without a pair, whatever the operands, and for an unknown mnemonic; with
the default catalog for an unknown mnemonic alone. It can fail with a ParseError alone. -/
def Obligations.CompileTextFailsOnlyToParse : Prop :=
  (∀ (cat : List Entry) (line : Text), compileText cat line = .ok none ↔
    ∀ e, lookupMnemonic cat (splitMnemonic line).1 = some e → e.code = none) ∧
  (∀ line : Text, compileText catalog line = .ok none ↔ ∀ e ∈ catalog, e.op.mnemonic ≠ (splitMnemonic line).1) ∧
  (∀ (cat : List Entry) (line : Text) (f : Fault), compileText cat line = .error f → ∃ tok, f = .parseError tok)

/-- R158, R162, R168. No step stops the machine: every state steps, a request is consumed if there is one, the parameters
stay; and with nothing presented nothing changes (the model's choice, log 2). -/
def Obligations.NoStepStopsTheMachine : Prop :=
  (∀ st : State, ∃ u, step st = .next u ∧ u.requests = st.requests.tail ∧ u.params = st.params) ∧
  (∀ st : State, st.requests = [] → step st = .next st)

/-- R71, R158. Every instruction ends in `Done` or in a fault, and the machine goes on; it never waits and never stops. -/
def Obligations.EveryInstructionEndsInAnOutcome : Prop :=
  ∀ (i : Instr) (st : State), ∃ u, exec i st = .next u ∧ SameSurroundings st u ∧
    ((∃ ret, u.outcome = some (.done ret)) ∨ ∃ f, u.outcome = some (.fault f))

/-- R77, R156 (the spec's decision D14). A transaction that ends in a fault or in `NoInstruction` leaves the registers, the
memory, the stack and the pc exactly as they were. -/
def Obligations.FailedTransactionChangesNothing : Prop :=
  ∀ (r : Request) (st u : State), transact r st = .next u →
    (u.outcome = some .noInstruction ∨ ∃ f, u.outcome = some (.fault f)) → OnlyReports st u

/-- R73, R159 (the spec's decisions D13, D25). A Register operand of 30 or more is `RegisterIndexFault` before any other fault
of any instruction; with valid operands that fault is never raised. -/
def Obligations.RegisterIndexFaultComesFirst : Prop :=
  (∀ (i : Instr) (st : State) (r : Nat), r ∈ i.registers → numRegs ≤ r → FaultsWith i st .registerIndexFault) ∧
  (∀ (i : Instr) (st u : State), (∀ r ∈ i.registers, r < numRegs) → exec i st = .next u →
    u.outcome ≠ some (.fault .registerIndexFault))

/-- R151, R152, R153, R155, R160. Each fault of an operation has its one cause: a zero divisor, an address outside the memory,
an empty stack, a full stack; no operation raises a ParseError. -/
def Obligations.EachFaultHasItsCause : Prop :=
  ∀ (i : Instr) (st u : State), exec i st = .next u →
    (u.outcome = some (.fault .arithmeticError) →
      ∃ d s t : RegIdx, (i = .div d s t ∨ i = .mod d s t) ∧ st.reg t = 0) ∧
    (∀ a, u.outcome = some (.fault (.boundsError a)) → st.params.memCells ≤ a ∧
      ((∃ (t s : RegIdx) (C : Const), (i = .lw t C s ∨ i = .sw t C s) ∧ a = effAddr s C st) ∨
        ∃ C : Const, i = .pkm C ∧ a = C.toNat)) ∧
    (u.outcome = some (.fault .stackUnderflow) → (∃ rd : RegIdx, i = .stpop rd) ∧ st.stack = []) ∧
    (u.outcome = some (.fault .stackOverflow) →
      ((∃ r : RegIdx, i = .stpush r) ∨ ∃ C, i = .stpushi C) ∧
        ∃ n, st.params.stackDepth = some n ∧ n ≤ st.stack.length) ∧
    (∀ tok, u.outcome ≠ some (.fault (.parseError tok)))

/-- R10: what the port last reported, what the host presents next and the catalog are no state of the core: no instruction's
effect depends on them. -/
def Obligations.EffectsDependOnTheCoreAlone : Prop :=
  ∀ (i : Instr) (st u : State) (o : Option TxOutcome) (q : List Request) (cat : List Entry), exec i st = .next u →
    exec i { st with outcome := o, requests := q, params := { st.params with catalog := cat } } =
      .next { u with requests := q, params := { u.params with catalog := cat } }

/-- R70, R150. The status codes (the spec's decision D15), and `ret_valid`, which is 1 exactly when a value is returned. -/
def Obligations.PortReportsTheOutcome : Prop :=
  (∀ ret, (TxOutcome.done ret).status = 0) ∧ TxOutcome.noInstruction.status = 1 ∧
  (TxOutcome.fault .arithmeticError).status = 2 ∧ (∀ a, (TxOutcome.fault (.boundsError a)).status = 3) ∧
  (TxOutcome.fault .stackUnderflow).status = 4 ∧ (TxOutcome.fault .registerIndexFault).status = 5 ∧
  (∀ tok, (TxOutcome.fault (.parseError tok)).status = 6) ∧ (TxOutcome.fault .stackOverflow).status = 7 ∧
  (∀ o : TxOutcome, o.retValid = 1 ↔ ∃ v, o = .done (some v))

/-! ### Whole-machine rules -/

/-- R17, R80. No instruction other than `jal`, `jr` and `j` changes the pc. -/
def Obligations.OnlyJumpsChangeThePc : Prop :=
  ∀ (i : Instr) (st u : State), exec i st = .next u →
    u.pc = st.pc ∨ (∃ C, i = .jal C) ∨ (∃ r, i = .jr r) ∨ ∃ C, i = .j C

/-- R34. No instruction other than `sw` changes the memory. -/
def Obligations.OnlySwChangesMemory : Prop :=
  ∀ (i : Instr) (st u : State), exec i st = .next u → u.mem = st.mem ∨ ∃ t C s, i = .sw t C s

/-- R22, R125 (d), (e). The stack changes by one entry more on a completed push, one less on a completed pop, and not at all
otherwise. -/
def Obligations.OnlyPushAndPopMoveTheStack : Prop :=
  ∀ (i : Instr) (st u : State), exec i st = .next u →
    u.stack = st.stack ∨
      (u.outcome = some (.done none) ∧ ((∃ r, i = .stpush r) ∨ ∃ C, i = .stpushi C) ∧
        ∃ v, v < 2 ^ 32 ∧ u.stack = v :: st.stack) ∨
      (u.outcome = some (.done none) ∧ (∃ rd, i = .stpop rd) ∧ ∃ v, st.stack = v :: u.stack)

/-- R15. A register that changes is the destination of the instruction, or register 1 for `jal`, and never register 0. -/
def Obligations.OnlyTheDestinationChanges : Prop :=
  ∀ (i : Instr) (st u : State) (j : RegIdx), exec i st = .next u → u.reg j ≠ st.reg j →
    destination i = some j.val ∧ j ≠ 0

/-- R71. Only `pkr` and `pkm` return a value to the host, and they change nothing else. -/
def Obligations.OnlyPeeksReturnAValue : Prop :=
  ∀ (i : Instr) (st u : State) (v : Word), exec i st = .next u → u.outcome = some (.done (some v)) →
    ((∃ r, i = .pkr r) ∨ ∃ C, i = .pkm C) ∧ OnlyReports st u

/-- R38 (b). A load sees the store before it: at the address stored to, the stored register's value; elsewhere, what was
there. -/
def Obligations.LoadSeesTheStoreBeforeIt : Prop :=
  ∀ (st u : State) (t s d b : RegIdx) (C D : Const), exec (.sw t C s) st = .next u → u.outcome = some (.done none) →
    effAddr b D u < u.params.memCells →
    ∃ v, EndsIn (.lw d D b) u v (.done none) ∧
      WritesRegister u v d (if effAddr b D u = effAddr s C st then st.reg t else st.mem.read (effAddr b D st))

/-- R125 (a), (b), from the spec's own derivation: a push and then a pop restore the stack and move the value. -/
def Obligations.PushThenPopMovesTheValue : Prop :=
  (∀ (st u : State) (r rd : RegIdx), exec (.stpush r) st = .next u → u.outcome = some (.done none) →
    ∃ v, EndsIn (.stpop rd) u v (.done none) ∧ WritesRegister st v rd (st.reg r)) ∧
  (∀ (st u : State) (C : Const) (rd : RegIdx), exec (.stpushi C) st = .next u → u.outcome = some (.done none) →
    ∃ v, EndsIn (.stpop rd) u v (.done none) ∧ WritesRegister st v rd (C.setWidth 32))

/-- The idiom of 30_encoding.md R69, from the spec's own derivation: `li d, hi`, `sll d, d, 16`, `ori d, d, lo`, presented as
words to a core with the default catalog, leave any 32-bit value in a register other than 0 in three steps. -/
def Obligations.ThreeWordsLoadAnyConstant : Prop :=
  ∀ (st : State) (d : RegIdx) (v : Word) (rest : List Request), d ≠ 0 → st.params.catalog = catalog →
    st.requests = .word (encode (.li d (v.extractLsb' 16 16))) :: .word (encode (.sll d d 16)) ::
      .word (encode (.ori d d (v.extractLsb' 0 16))) :: rest →
    ∃ u, Host.Core.run Sys2Proof.core 3 st = .next u ∧ u.reg d = v ∧ u.requests = rest ∧ u.pc = st.pc ∧
      ∀ j : RegIdx, j ≠ d → u.reg j = st.reg j

/-! ### Encoding and text -/

/-- A word of the spec for one instruction of each family (95_test_vectors.md) decodes to that instruction. -/
def Obligations.WordsOfTheSpecDecode : Prop :=
  decode 0x01484801 = some (.add 10 8 9) ∧ decode 0x05280001 = some (.addi 9 8 1) ∧
  decode 0x0128080A = some (.sll 9 8 1) ∧ decode 0x15240007 = some (.lw 9 7 4) ∧
  decode 0x0240000D = some (.stpop 18) ∧ decode 0x2400FFFE = some (.j 65534) ∧ decode 0x0140000F = some (.pkr 10) ∧
  decode 0x00000000 = none ∧ decode 0xFFFFFFFF = none

/-- R67 (a), from the spec's own derivation: the word of an instruction whose operands fit their fields decodes to it. -/
def Obligations.DecodeAfterEncode : Prop :=
  ∀ i : Instr, i.wf = true → decode (encode i) = some i

/-- R67 (b), from the spec's own derivation: every word that decodes is the word of its instruction, whose operands fit. -/
def Obligations.EncodeAfterDecode : Prop :=
  ∀ (w : Word) (i : Instr), decode w = some i → i.wf = true ∧ encode i = w

/-- The words that match no entry, as 30_encoding.md R57 lists them (the funct and op values are the spec's decision D5). -/
def Obligations.UnmatchedWordsAreTheListedOnes : Prop :=
  ∀ w : Word, decode w = none ↔
    (w.extractLsb' 26 6 = 0 ∧ (w.extractLsb' 0 6 = 0 ∨ 0x10 ≤ (w.extractLsb' 0 6).toNat)) ∨
    (w.extractLsb' 26 6 = 0 ∧ 1 ≤ (w.extractLsb' 0 6).toNat ∧ (w.extractLsb' 0 6).toNat ≤ 0x0B ∧ w.extractLsb' 6 5 ≠ 0) ∨
    (w.extractLsb' 26 6 = 0 ∧ 0x0C ≤ (w.extractLsb' 0 6).toNat ∧ (w.extractLsb' 0 6).toNat ≤ 0x0F ∧
      w.extractLsb' 6 15 ≠ 0) ∨
    0x0B ≤ (w.extractLsb' 26 6).toNat ∨
    (w.extractLsb' 26 6 = 4 ∧ w.extractLsb' 16 5 ≠ 0) ∨
    (7 ≤ (w.extractLsb' 26 6).toNat ∧ (w.extractLsb' 26 6).toNat ≤ 0x0A ∧ w.extractLsb' 16 10 ≠ 0)

/-- R53, R54. The default catalog passes the check, and in every catalog that passes it a word matches at most one entry, so
the scan order does not matter; the check on two pairs holds exactly when no word matches both. -/
def Obligations.CatalogCheckMakesDecodingUnique : Prop :=
  CatalogWf catalog ∧
  (∀ (cat : List Entry) (w : Word) (e f : Entry), CatalogWf cat → e ∈ cat → f ∈ cat → e.accepts w = true →
    f.accepts w = true → e = f) ∧
  (∀ (cat cat' : List Entry) (w : Word), CatalogWf cat → cat.Perm cat' → decodeEntry cat w = decodeEntry cat' w) ∧
  (∀ a b : MaskMatch, a.proper → b.proper →
    (a.disjoint b ↔ ¬ ∃ w : Word, w &&& a.mask = a.pattern ∧ w &&& b.mask = b.pattern))

/-- R64. The assembler keeps the low 5 bits of an operand in each register-form field and places the fields at 21, 16 and
11. -/
def Obligations.AssemblerTruncatesToTheField : Prop :=
  (∀ (op : Op) (ops : List Nat), (entry op).family = .registerForm →
    assemble (entry op) ops = assemble (entry op) (ops.map (· % 32))) ∧
  (∀ d s t : Nat, (encode (.add d s t)).toNat = d % 32 * 2 ^ 21 + s % 32 * 2 ^ 16 + t % 32 * 2 ^ 11 + 1) ∧
  (∀ (d t : Nat) (C : Const),
    (encode (.sll d t C)).toNat = d % 32 * 2 ^ 21 + t % 32 * 2 ^ 16 + C.toNat % 32 * 2 ^ 11 + 0x0A) ∧
  (∀ r : Nat, (encode (.pkr r)).toNat = r % 32 * 2 ^ 21 + 0x0F)

/-- R61, R62. A register token is the index it writes in decimal, not range-checked; a constant token is the number it writes
in decimal, with or without a minus sign, masked to 16 bits. -/
def Obligations.DecimalTokensGiveTheirNumber : Prop :=
  (∀ n : Nat, parseRegister ('$' :: Nat.toDigits 10 n) = some n) ∧
  (∀ n : Nat, parseConstant (Nat.toDigits 10 n) = some (BitVec.ofNat 16 n)) ∧
  (∀ n : Nat, parseConstant ('-' :: Nat.toDigits 10 n) = some (BitVec.ofInt 16 (-(n : Int))))

/-- R60, R63. Too few or too many tokens, or a token that does not fit its slot, is a ParseError. -/
def Obligations.IllFormedOperandsDoNotParse : Prop :=
  (∀ (sig : List Slot) (rest : Text), (tokens rest).length ≠ sig.length →
    ∃ tok, parseOperands sig rest = .error (.parseError tok)) ∧
  (∀ (sig : List Slot) (rest : Text) (k : Nat) (slot : Slot) (token : Text), sig[k]? = some slot →
    (tokens rest)[k]? = some token → parseOperand slot token = none →
    ∃ tok, parseOperands sig rest = .error (.parseError tok)) ∧
  (∀ (sig : List Slot) (rest : Text) (ops : List Nat), parseOperands sig rest = .ok ops →
    ops.length = sig.length ∧
      ∀ (k : Nat) (slot : Slot) (token : Text), sig[k]? = some slot → (tokens rest)[k]? = some token →
        parseOperand slot token = ops[k]?)

/-- R5, R53, R55. In every catalog that R5 allows and whose entries have the operand slots that R52 gives their mnemonic (this
slot condition is the model's deduction, log 21; catalogs with other slots are left out), whatever its pairs, families and
order: a word that an entry matches decodes to
that entry's operation, the operand of each slot from the bits that the entry's family gives the slot; a word that no entry
matches decodes to none. That at most one entry matches is the spec's own inference (R54). -/
def Obligations.DecodingFollowsTheCatalog : Prop :=
  ∀ p : Params, p.wf →
    (∀ (w : Word) (e : Entry) (c : MaskMatch), e ∈ p.catalog → e.code = some c → w &&& c.mask = c.pattern →
      ∃ i : Instr, decodeWith p.catalog w = some i ∧ i.op = e.op ∧ i.operands.length = e.signature.length ∧
        ∀ (k : Nat) (slot : Slot), e.signature[k]? = some slot → i.operands[k]? = some
          (if e.family = .registerForm then (w.extractLsb' (21 - 5 * k) 5).toNat
          else if slot = .constant then (w.extractLsb' 0 16).toNat
          else (w.extractLsb' (21 - 5 * (e.signature.take k).count .register) 5).toNat)) ∧
    (∀ w : Word, (∀ e ∈ p.catalog, ∀ c, e.code = some c → w &&& c.mask ≠ c.pattern) → decodeWith p.catalog w = none)
end

