-- ==== Sys2Proof/Laws/Encoding.lean ====
section
/-! SUPPORT. The catalog is well formed, so the entry a word matches is the entry the decoder finds; and the small facts
about operand fields that encoding and decoding rest on. -/

namespace Sys2Proof

/-- The default catalog passes the check of 30_encoding.md R54. -/
theorem catalog_wf : CatalogWf catalog := by decide

/-- The default parameters meet what R5 asks of parameters. -/
theorem params_default_wf : Params.default.wf := ⟨by decide, catalog_wf, by decide⟩

theorem catalogOrder_complete (op : Op) : op ∈ catalogOrder := by
  cases op <;> decide

theorem entry_mem (op : Op) : entry op ∈ catalog :=
  List.mem_map_of_mem (catalogOrder_complete op)

/-- The catalog holds, for each operation, its own row. -/
theorem entry_op (op : Op) : (entry op).op = op := by
  cases op <;> rfl

/-- Two pairs that disagree on a bit both test are matched by no common word. -/
theorem MaskMatch.disjoint.not_both {a b : MaskMatch} (h : a.disjoint b) {w : Word} (ha : w &&& a.mask = a.pattern)
    (hb : w &&& b.mask = b.pattern) : False := by
  apply h
  rw [← ha, ← hb]
  ext i hi
  show _ = (0#32)[i]
  simp only [BitVec.getElem_and, BitVec.getElem_xor, BitVec.getElem_zero]
  cases w[i] <;> cases a.mask[i] <;> cases b.mask[i] <;> rfl

theorem Entry.accepts_iff {e : Entry} {w : Word} :
    e.accepts w = true ↔ ∃ c, e.code = some c ∧ w &&& c.mask = c.pattern := by
  cases h : e.code <;> simp [Entry.accepts, h]

/-- In a catalog that passes the check, the scan finds the entry that matches, wherever it stands. -/
theorem decodeEntry_of_accepts {cat : List Entry} (h : (codes cat).Pairwise MaskMatch.disjoint) {e : Entry}
    (he : e ∈ cat) {w : Word} (hw : e.accepts w = true) : decodeEntry cat w = some e := by
  induction cat with
  | nil => cases he
  | cons f cat ih =>
    rw [decodeEntry, List.find?_cons]
    cases hf : f.accepts w with
    | true =>
      rcases List.mem_cons.mp he with rfl | he
      · rfl
      · obtain ⟨a, hfa, haw⟩ := Entry.accepts_iff.mp hf
        obtain ⟨b, heb, hbw⟩ := Entry.accepts_iff.mp hw
        rw [codes, List.filterMap_cons_some hfa] at h
        have := (List.pairwise_cons.mp h).1 b (List.mem_filterMap.mpr ⟨e, he, heb⟩)
        exact (this.not_both haw hbw).elim
    | false =>
      rcases List.mem_cons.mp he with rfl | he
      · rw [hw] at hf; cases hf
      · refine ih ?_ he
        cases hc : f.code with
        | none => rwa [codes, List.filterMap_cons_none hc] at h
        | some c =>
          rw [codes, List.filterMap_cons_some hc] at h
          exact (List.pairwise_cons.mp h).2

/-- In a catalog that passes the check, a word that an entry matches decodes as the entry's operation on its fields. -/
theorem decodeWith_of_accepts {cat : List Entry} (h : (codes cat).Pairwise MaskMatch.disjoint) {e : Entry}
    (he : e ∈ cat) {w : Word} (hw : e.accepts w = true) : decodeWith cat w = e.op.build (extract e w) := by
  rw [decodeWith, decodeEntry_of_accepts h he hw]

/-- In any catalog, a word that no entry matches decodes to none. -/
theorem decodeWith_eq_none {cat : List Entry} {w : Word} (h : ∀ e ∈ cat, e.accepts w = false) :
    decodeWith cat w = none := by
  rw [decodeWith, decodeEntry, List.find?_eq_none.mpr]
  simpa using h

/-- A word that matches the row of an operation decodes as that operation on the fields of the row. -/
theorem decode_of_accepts (op : Op) {w : Word} (hw : (entry op).accepts w = true) :
    decode w = op.build (extract (entry op) w) := by
  rw [decode, decodeWith_of_accepts catalog_wf.2.1 (entry_mem op) hw, entry_op]

/-- What the scan finds is the row of an operation that the word matches. -/
theorem decodeEntry_some {w : Word} {e : Entry} (h : decodeEntry catalog w = some e) :
    ∃ op, e = entry op ∧ (entry op).accepts w = true := by
  obtain ⟨op, _, rfl⟩ := List.mem_map.mp (List.mem_of_find?_eq_some h)
  exact ⟨op, rfl, by simpa using List.find?_some h⟩

/-- All that decoding can answer: an operation whose row the word matches, on the fields of that row. -/
theorem decode_eq_some_iff (w : Word) (i : Instr) :
    decode w = some i ↔ ∃ op, (entry op).accepts w = true ∧ op.build (extract (entry op) w) = some i := by
  constructor
  · intro h
    rw [decode, decodeWith] at h
    split at h
    · next e he =>
      obtain ⟨op, rfl, ha⟩ := decodeEntry_some he
      exact ⟨op, ha, by rwa [entry_op] at h⟩
    · cases h
  · rintro ⟨op, ha, hb⟩
    rw [decode_of_accepts op ha, hb]

/-- A word decodes to none exactly when it matches no row. -/
theorem decode_eq_none_iff (w : Word) : decode w = none ↔ ∀ op, (entry op).accepts w = false := by
  have total : ∀ op, (entry op).accepts w = true → decode w ≠ none := by
    intro op h
    rw [decode_of_accepts op h]
    cases op <;> simp [entry, Entry.rForm, Entry.iForm, extract, extractR, extractI, Op.build]
  constructor
  · intro h op
    cases ha : (entry op).accepts w with
    | true => exact (total op ha h).elim
    | false => rfl
  · intro h
    refine decodeWith_eq_none fun e he => ?_
    obtain ⟨op, _, rfl⟩ := List.mem_map.mp he
    exact h op

/-- An operation takes any operand values, one for each of its slots, if its constants have 16 bits, and keeps every one. -/
theorem Op.build_eq_some {op : Op} {ops : List Nat} (hl : ops.length = (entry op).signature.length)
    (hc : ∀ (k v : Nat), (entry op).signature[k]? = some Slot.constant → ops[k]? = some v → v < 65536) :
    ∃ i, op.build ops = some i ∧ i.op = op ∧ i.operands = ops := by
  have fits (k v : Nat) (hs : (entry op).signature[k]? = some Slot.constant) (ho : ops[k]? = some v) :
      (BitVec.ofNat 16 v).toNat = v := BitVec.toNat_ofNat v 16 ▸ Nat.mod_eq_of_lt (hc k v hs ho)
  have f0 := fits 0
  have f1 := fits 1
  have f2 := fits 2
  cases op <;> simp only [entry, Entry.rForm, Entry.iForm, List.length_cons, List.length_nil] at hl f0 f1 f2 <;>
    rcases ops with _ | ⟨a, _ | ⟨b, _ | ⟨c, _ | ⟨d, l⟩⟩⟩⟩ <;> simp at hl <;>
    exact ⟨_, rfl, rfl, by simp_all [Instr.operands]⟩

theorem extractR_length (sig : List Slot) (lo : Nat) (w : Word) : (extractR sig lo w).length = sig.length := by
  induction sig generalizing lo with
  | nil => rfl
  | cons _ sig ih => simp [extractR, ih]

theorem extractI_length (sig : List Slot) (lo : Nat) (w : Word) : (extractI sig lo w).length = sig.length := by
  induction sig generalizing lo with
  | nil => rfl
  | cons slot sig ih => cases slot <;> simp [extractI, ih]

/-- Extraction gives one value for each slot (30_encoding.md R55). -/
theorem extract_length (e : Entry) (w : Word) : (extract e w).length = e.signature.length := by
  cases h : e.family <;> simp [extract, h, extractR_length, extractI_length]

theorem field5_lt (lo : Nat) (w : Word) : field5 lo w < 32 := (w.extractLsb' lo 5).isLt

/-- The constant of an immediate-form word is its bits 15:0. -/
theorem ofNat_field16 (w : Word) : BitVec.ofNat 16 (field16 w) = w.extractLsb' 0 16 := by
  rw [field16, BitVec.ofNat_toNat, BitVec.setWidth_eq]

end Sys2Proof
end

