-- ==== Sys2Proof/Laws/Memory.lean ====
section
/-! SUPPORT. Memory: a read after a write, and that every operation keeps the canonical form and the bounds. -/

namespace Sys2Proof.Machine

theorem Memory.mem_erase {m : Memory} {a : Nat} {c : Nat × Word} (h : c ∈ m.erase a) : c ∈ m := by
  induction m with
  | nil => exact h
  | cons d m ih =>
    rw [Memory.erase] at h
    split at h
    · simp [ih h]
    · rcases List.mem_cons.mp h with rfl | h
      · simp
      · simp [ih h]

theorem Memory.mem_insert {m : Memory} {a : Nat} {v : Word} {c : Nat × Word} (h : c ∈ m.insert a v) :
    c = (a, v) ∨ c ∈ m := by
  induction m with
  | nil => simpa [Memory.insert] using h
  | cons d m ih =>
    rw [Memory.insert] at h
    split at h
    · simpa using h
    · split at h
      · rcases List.mem_cons.mp h with h | h
        · exact .inl h
        · simp [h]
      · rcases List.mem_cons.mp h with rfl | h
        · simp
        · rcases ih h with h | h <;> simp [h]

theorem Memory.read_erase (m : Memory) (a b : Nat) :
    (m.erase a).read b = if b = a then Config.unwrittenCell else m.read b := by
  induction m with
  | nil => simp [Memory.erase, Memory.read]
  | cons c m ih =>
    rw [Memory.erase]
    split_ifs with h1 h2 h3 <;> simp only [Memory.read, ih] <;> split_ifs <;> first | rfl | omega

theorem Memory.read_insert (m : Memory) (a b : Nat) (v : Word) :
    (m.insert a v).read b = if b = a then v else m.read b := by
  induction m with
  | nil => simp [Memory.insert, Memory.read, eq_comm]
  | cons c m ih =>
    rw [Memory.insert]
    split_ifs with h1 h2 h3 h4 <;> simp only [Memory.read, ih] <;> split_ifs <;> first | rfl | omega

/-- A read after a write: the written cell reads the value, every other cell reads as before (20_memory.md R33). -/
theorem Memory.read_write (m : Memory) (a b : Nat) (v : Word) :
    (m.write a v).read b = if b = a then v else m.read b := by
  rw [Memory.write]
  split
  · subst v; exact Memory.read_erase m a b
  · exact Memory.read_insert m a b v

theorem Memory.erase_wf {m : Memory} (hm : m.wf) (a : Nat) : (m.erase a).wf := by
  refine ⟨?_, fun c hc => hm.2 c (Memory.mem_erase hc)⟩
  have hp := hm.1
  clear hm
  induction m with
  | nil => exact hp
  | cons c m ih =>
    obtain ⟨habove, hp⟩ := List.pairwise_cons.mp hp
    rw [Memory.erase]
    split
    · exact ih hp
    · exact List.pairwise_cons.mpr ⟨fun d hd => habove d (Memory.mem_erase hd), ih hp⟩

theorem Memory.insert_wf {m : Memory} (hm : m.wf) (a : Nat) {v : Word} (hv : v ≠ Config.unwrittenCell) :
    (m.insert a v).wf := by
  refine ⟨?_, fun c hc => ?_⟩
  · have hp := hm.1
    clear hm
    induction m with
    | nil => simp [Memory.insert]
    | cons c m ih =>
      obtain ⟨habove, hpm⟩ := List.pairwise_cons.mp hp
      rw [Memory.insert]
      split_ifs with h1 h2
      · refine List.pairwise_cons.mpr ⟨fun d hd => ?_, hp⟩
        rcases List.mem_cons.mp hd with rfl | hd
        · exact h1
        · exact h1.trans (habove d hd)
      · exact List.pairwise_cons.mpr ⟨fun d hd => h2 ▸ habove d hd, hpm⟩
      · refine List.pairwise_cons.mpr ⟨fun d hd => ?_, ih hpm⟩
        rcases Memory.mem_insert hd with rfl | hd
        · show c.1 < a
          omega
        · exact habove d hd
  · rcases Memory.mem_insert hc with rfl | hc
    · exact hv
    · exact hm.2 c hc

/-- The memory operation that changes memory keeps the canonical form. -/
theorem Memory.write_wf {m : Memory} (hm : m.wf) (a : Nat) (v : Word) : (m.write a v).wf := by
  rw [Memory.write]
  split
  · exact Memory.erase_wf hm a
  · exact Memory.insert_wf hm a ‹_›

/-- A write lists no cell but the one it writes and those listed before. -/
theorem Memory.mem_write {m : Memory} {a : Nat} {v : Word} {c : Nat × Word} (h : c ∈ m.write a v) :
    c.1 = a ∨ c ∈ m := by
  rw [Memory.write] at h
  split at h
  · exact .inr (Memory.mem_erase h)
  · rcases Memory.mem_insert h with rfl | h
    · exact .inl rfl
    · exact .inr h

end Sys2Proof.Machine
end

