-- ==== Sys2Proof/Laws/State.lean ====
section
/-! SUPPORT. Registers: what a read sees after each kind of update, and that a register write touches nothing else. -/

namespace Sys2Proof.Machine

@[simp] theorem State.reg_zero (st : State) : st.reg 0 = 0 := rfl

@[simp] theorem State.setReg_zero (v : Int) (st : State) : st.setReg 0 v = st := rfl

/-- 10_state.md R12 and R13 in one equation. -/
theorem State.reg_setReg (i j : RegIdx) (v : Int) (st : State) :
    (st.setReg i v).reg j = if j = i ∧ i ≠ 0 then mask32 v else st.reg j := by
  have hi : i.val = 0 ↔ i = 0 := Fin.val_eq_zero_iff
  have hj : j.val = 0 ↔ j = 0 := Fin.val_eq_zero_iff
  by_cases h0 : i = 0
  · simp [h0]
  by_cases h1 : j = 0
  · subst h1; simp [Ne.symm h0]
  have hslot : i.val - 1 = j.val - 1 ↔ j = i := by
    rw [Fin.ext_iff]
    have := mt hi.mp h0
    have := mt hj.mp h1
    omega
  simp only [State.reg, State.setReg, hi, hj, h0, h1, if_false, Vector.getElem_set, hslot]
  simp [h0]

@[simp] theorem State.setReg_mem (i : RegIdx) (v : Int) (st : State) : (st.setReg i v).mem = st.mem := by
  unfold State.setReg; split <;> rfl

@[simp] theorem State.setReg_stack (i : RegIdx) (v : Int) (st : State) : (st.setReg i v).stack = st.stack := by
  unfold State.setReg; split <;> rfl

@[simp] theorem State.setReg_pc (i : RegIdx) (v : Int) (st : State) : (st.setReg i v).pc = st.pc := by
  unfold State.setReg; split <;> rfl

@[simp] theorem State.setReg_outcome (i : RegIdx) (v : Int) (st : State) : (st.setReg i v).outcome = st.outcome := by
  unfold State.setReg; split <;> rfl

@[simp] theorem State.setReg_requests (i : RegIdx) (v : Int) (st : State) : (st.setReg i v).requests = st.requests := by
  unfold State.setReg; split <;> rfl

@[simp] theorem State.setReg_params (i : RegIdx) (v : Int) (st : State) : (st.setReg i v).params = st.params := by
  unfold State.setReg; split <;> rfl

section
variable (st : State) (i : RegIdx)

@[simp] theorem State.reg_mem (m : Memory) : State.reg { st with mem := m } i = st.reg i := rfl
@[simp] theorem State.reg_stack (k : List Nat) : State.reg { st with stack := k } i = st.reg i := rfl
@[simp] theorem State.reg_pc (p : Nat) : State.reg { st with pc := p } i = st.reg i := rfl
@[simp] theorem State.reg_outcome (o : Option TxOutcome) : State.reg { st with outcome := o } i = st.reg i := rfl
@[simp] theorem State.reg_requests (r : List Request) : State.reg { st with requests := r } i = st.reg i := rfl

@[simp] theorem State.val_zero : st.val 0 = 0 := rfl
theorem State.val_lt : st.val i < 2 ^ 32 := (st.reg i).isLt

end

/-- A read depends on the register file alone. -/
theorem State.reg_congr {st t : State} (h : t.gpr = st.gpr) (j : RegIdx) : t.reg j = st.reg j := by
  unfold State.reg
  simp only [h]

/-- Registers that read alike are alike: no state differs in what no instruction can read. -/
theorem State.gpr_eq_of_reg_eq {st t : State} (h : ∀ j : RegIdx, t.reg j = st.reg j) : t.gpr = st.gpr := by
  apply Vector.ext
  intro k hk
  have := h ⟨k + 1, by simp only [numRegs]; omega⟩
  simpa [State.reg] using this

/-- Masking an exact sum, difference or product is the arithmetic of 32-bit words (41_arithmetic.md R92 (c)). -/
@[simp] theorem mask32_natCast (n : Nat) : mask32 (n : Int) = BitVec.ofNat 32 n := by
  simp [mask32]

theorem mask32_add (a b : Word) : mask32 ((a.toNat : Int) + b.toNat) = a + b := by
  rw [← Nat.cast_add, mask32_natCast]
  exact BitVec.eq_of_toNat_eq (by simp)

theorem mask32_mul (a b : Word) : mask32 ((a.toNat : Int) * b.toNat) = a * b := by
  rw [← Nat.cast_mul, mask32_natCast]
  exact BitVec.eq_of_toNat_eq (by simp)

theorem mask32_sub (a b : Word) : mask32 ((a.toNat : Int) - b.toNat) = a - b := by
  apply BitVec.eq_of_toNat_eq
  rw [mask32, BitVec.toNat_ofInt, BitVec.toNat_sub]
  have := a.isLt
  have := b.isLt
  omega

/-- A constant widened to a register keeps its value (30_encoding.md R56). -/
theorem toNat_zext (C : Const) : (C.setWidth 32).toNat = C.toNat := by
  rw [BitVec.toNat_setWidth]
  exact Nat.mod_eq_of_lt (by have := C.isLt; omega)

end Sys2Proof.Machine
end

