-- ==== Sys2Proof/Laws/Ops.lean ====
section
/-! SUPPORT. What each shared operation can do, said once: validation, the ends of a transaction, memory, stack. -/

namespace Sys2Proof.Machine

/-! ### Validation -/

@[simp] theorem withReg_val (i : RegIdx) (st : State) (k : RegIdx → Host.Outcome State Fault Refusal) :
    withReg i.val st k = k i := by
  rw [withReg, dif_pos i.isLt]

theorem withReg_invalid {i : Nat} (h : numRegs ≤ i) (st : State) (k : RegIdx → Host.Outcome State Fault Refusal) :
    withReg i st k = raise .registerIndexFault st := by
  rw [withReg, dif_neg (by omega)]

/-- Validation ends in the fault, or in the operation on the valid index. -/
theorem withReg_cases (i : Nat) (st : State) (k : RegIdx → Host.Outcome State Fault Refusal) :
    (numRegs ≤ i ∧ withReg i st k = raise .registerIndexFault st) ∨ ∃ j : RegIdx, j.val = i ∧ withReg i st k = k j := by
  by_cases h : i < numRegs
  · exact .inr ⟨⟨i, h⟩, rfl, dif_pos h⟩
  · exact .inl ⟨by omega, dif_neg h⟩

@[simp] theorem withRegs2_val (a b : RegIdx) (st : State) (k : RegIdx → RegIdx → Host.Outcome State Fault Refusal) :
    withRegs2 a.val b.val st k = k a b := by
  simp [withRegs2]

@[simp] theorem withRegs3_val (a b c : RegIdx) (st : State)
    (k : RegIdx → RegIdx → RegIdx → Host.Outcome State Fault Refusal) :
    withRegs3 a.val b.val c.val st k = k a b c := by
  simp [withRegs3]

theorem withRegs2_invalid {a b : Nat} (h : numRegs ≤ a ∨ numRegs ≤ b) (st : State)
    (k : RegIdx → RegIdx → Host.Outcome State Fault Refusal) :
    withRegs2 a b st k = raise .registerIndexFault st := by
  rcases withReg_cases a st (fun a => withReg b st fun b => k a b) with ⟨_, e⟩ | ⟨j, hj, e⟩
  · exact e
  · rw [withRegs2, e]
    exact withReg_invalid (h.resolve_left (by have := j.isLt; omega)) st _

theorem withRegs3_invalid {a b c : Nat} (h : numRegs ≤ a ∨ numRegs ≤ b ∨ numRegs ≤ c) (st : State)
    (k : RegIdx → RegIdx → RegIdx → Host.Outcome State Fault Refusal) :
    withRegs3 a b c st k = raise .registerIndexFault st := by
  rcases withReg_cases a st (fun a => withReg b st fun b => withReg c st fun c => k a b c) with ⟨_, e⟩ | ⟨j, hj, e⟩
  · exact e
  · rw [withRegs3, e]
    exact withRegs2_invalid (h.resolve_left (by have := j.isLt; omega)) st (k j)

/-! ### Memory and stack primitives -/

theorem memRead_ok {addr : Nat} {st : State} (h : addr < st.params.memCells) :
    memRead addr st = .ok (st.mem.read addr) := if_pos h

theorem memRead_error {addr : Nat} {st : State} (h : st.params.memCells ≤ addr) :
    memRead addr st = .error (.boundsError addr) := if_neg (by omega)

theorem memWrite_ok {addr : Nat} {v : Int} {st : State} (h : addr < st.params.memCells) :
    memWrite addr v st = .ok { st with mem := st.mem.write addr (mask32 v) } := if_pos h

theorem memWrite_error {addr : Nat} {v : Int} {st : State} (h : st.params.memCells ≤ addr) :
    memWrite addr v st = .error (.boundsError addr) := if_neg (by omega)

/-- A stack is full exactly when its depth is finite and reached. -/
theorem stackFull_iff (st : State) :
    st.stackFull = true ↔ ∃ n, st.params.stackDepth = some n ∧ n ≤ st.stack.length := by
  cases h : st.params.stackDepth <;> simp [State.stackFull, h]

theorem push_cases (v : Nat) (st : State) :
    (st.stackFull = true ∧ push v st = .error .stackOverflow) ∨
      (st.stackFull = false ∧ push v st = .ok { st with stack := v :: st.stack }) := by
  cases h : st.stackFull <;> simp [push, h]

theorem pop_cases (st : State) :
    (st.stack = [] ∧ pop st = .error .stackUnderflow) ∨
      ∃ v rest, st.stack = v :: rest ∧ pop st = .ok (v, { st with stack := rest }) := by
  cases h : st.stack with
  | nil => exact .inl ⟨rfl, by simp [pop, h]⟩
  | cons v rest => exact .inr ⟨v, rest, rfl, by simp [pop, h]⟩

/-! ### Ends of a transaction -/

/-- A fault leaves everything but the reported outcome as it was. -/
theorem raise_eq (f : Fault) (st : State) : raise f st = .next { st with outcome := some (.fault f) } := rfl

/-- A register write that completes: its value, masked, in its register, and everything else as before. -/
theorem writeBack_spec (st : State) (d : RegIdx) (v : Int) :
    ∃ u, (writeBack d v st = .next u ∧ u.outcome = some (.done none)) ∧ WritesRegister st u d (mask32 v) := by
  refine ⟨_, ⟨rfl, rfl⟩, fun j => ?_, fun a => by simp, by simp, by simp, by simp, by simp⟩
  exact (State.reg_congr (t := { st.setReg d v with outcome := some (.done none) }) rfl j).trans (State.reg_setReg d j v st)

end Sys2Proof.Machine
end

