-- ==== Sys2Proof/Laws/Exec.lean ====
section
/-! SUPPORT. Said once for all instructions: `exec` either takes a fault, for a cause, or completes with one of eight kinds
of effect. The rules about the whole machine follow from this by cases. -/

namespace Sys2Proof.Machine

/-- Why an instruction takes a fault (60_exceptions.md R151 to R154, R160). -/
inductive FaultCause (i : Instr) (st : State) : Fault → Prop where
  | registerIndex (r : Nat) (mem : r ∈ i.registers) (invalid : numRegs ≤ r) : FaultCause i st .registerIndexFault
  | zeroDivisor (d s t : RegIdx) (instr : i = .div d s t ∨ i = .mod d s t) (zero : st.reg t = 0) :
      FaultCause i st .arithmeticError
  | accessBounds (t s : RegIdx) (C : Const) (instr : i = .lw t C s ∨ i = .sw t C s)
      (outside : st.params.memCells ≤ effAddr s C st) : FaultCause i st (.boundsError (effAddr s C st))
  | peekBounds (C : Const) (instr : i = .pkm C) (outside : st.params.memCells ≤ C.toNat) :
      FaultCause i st (.boundsError C.toNat)
  | emptyStack (rd : RegIdx) (instr : i = .stpop rd) (empty : st.stack = []) : FaultCause i st .stackUnderflow
  | fullStack (instr : (∃ r : RegIdx, i = .stpush r) ∨ ∃ C, i = .stpushi C) (full : st.stackFull = true) :
      FaultCause i st .stackOverflow

/-- What an instruction that completes does to the state, but for the reported outcome, and what it returns. -/
inductive Effect (i : Instr) (st : State) : State → Option Word → Prop where
  | write (d : RegIdx) (v : Int) (dest : destination i = some d.val) : Effect i st (st.setReg d v) none
  | store (t s : RegIdx) (C : Const) (instr : i = .sw t C s) (inside : effAddr s C st < st.params.memCells) :
      Effect i st { st with mem := st.mem.write (effAddr s C st) (st.reg t) } none
  | push (v : Nat) (instr : (∃ r : RegIdx, i = .stpush r) ∨ ∃ C, i = .stpushi C) (width : v < 2 ^ 32)
      (room : st.stackFull = false) : Effect i st { st with stack := v :: st.stack } none
  | pop (rd : RegIdx) (v : Nat) (rest : List Nat) (instr : i = .stpop rd) (top : st.stack = v :: rest) :
      Effect i st (State.setReg rd v { st with stack := rest }) none
  | link (C : Const) (instr : i = .jal C) :
      Effect i st { st.setReg ra ((st.pc : Int) + 1) with pc := C.toNat } none
  | jump (pc : Nat) (instr : (∃ r : RegIdx, i = .jr r) ∨ ∃ C, i = .j C) : Effect i st { st with pc := pc } none
  | peekRegister (r : RegIdx) (instr : i = .pkr r) : Effect i st st (some (st.reg r))
  | peekCell (C : Const) (instr : i = .pkm C) (inside : C.toNat < st.params.memCells) :
      Effect i st st (some (st.mem.read C.toNat))

/-- The instruction takes a fault for a cause, or completes with an effect. -/
def Outcomes (i : Instr) (st : State) (r : Host.Outcome State Fault Refusal) : Prop :=
  (∃ f, r = raise f st ∧ FaultCause i st f) ∨ ∃ u ret, r = complete ret u ∧ Effect i st u ret

section
variable {i : Instr} {st : State}

theorem outcomes_withReg {a : Nat} {k : RegIdx → Host.Outcome State Fault Refusal} (ha : a ∈ i.registers)
    (h : ∀ x : RegIdx, a = x.val → Outcomes i st (k x)) : Outcomes i st (withReg a st k) := by
  rcases withReg_cases a st k with ⟨hi, e⟩ | ⟨x, hx, e⟩
  · exact .inl ⟨_, e, .registerIndex a ha hi⟩
  · rw [e]; exact h x hx.symm

theorem outcomes_withRegs2 {a b : Nat} {k : RegIdx → RegIdx → Host.Outcome State Fault Refusal}
    (ha : a ∈ i.registers) (hb : b ∈ i.registers)
    (h : ∀ x y : RegIdx, a = x.val → b = y.val → Outcomes i st (k x y)) : Outcomes i st (withRegs2 a b st k) :=
  outcomes_withReg ha fun x hx => outcomes_withReg hb fun y hy => h x y hx hy

theorem outcomes_withRegs3 {a b c : Nat} {k : RegIdx → RegIdx → RegIdx → Host.Outcome State Fault Refusal}
    (ha : a ∈ i.registers) (hb : b ∈ i.registers) (hc : c ∈ i.registers)
    (h : ∀ x y z : RegIdx, a = x.val → b = y.val → c = z.val → Outcomes i st (k x y z)) :
    Outcomes i st (withRegs3 a b c st k) :=
  outcomes_withReg ha fun x hx => outcomes_withReg hb fun y hy => outcomes_withReg hc fun z hz => h x y z hx hy hz

theorem outcomes_writeBack {d : RegIdx} (v : Int) (h : destination i = some d.val) :
    Outcomes i st (writeBack d v st) :=
  .inr ⟨_, _, rfl, .write d v h⟩

theorem outcomes_regRegOp (f : Nat → Nat → Int) {d s t : Nat} (hr : i.registers = [d, s, t])
    (hd : destination i = some d) : Outcomes i st (regRegOp f d s t st) :=
  outcomes_withRegs3 (by simp [hr]) (by simp [hr]) (by simp [hr]) fun _ _ _ hx _ _ => outcomes_writeBack _ (hx ▸ hd)

theorem outcomes_regConstOp (f : Nat → Nat → Int) {d s : Nat} (C : Const) (hr : i.registers = [d, s])
    (hd : destination i = some d) : Outcomes i st (regConstOp f d s C st) :=
  outcomes_withRegs2 (by simp [hr]) (by simp [hr]) fun _ _ hx _ => outcomes_writeBack _ (hx ▸ hd)

theorem outcomes_divisionOp (f : Nat → Nat → Int) {d s t : Nat} (hr : i.registers = [d, s, t])
    (hd : destination i = some d) (hi : i = .div d s t ∨ i = .mod d s t) : Outcomes i st (divisionOp f d s t st) :=
  outcomes_withRegs3 (by simp [hr]) (by simp [hr]) (by simp [hr]) fun x y z hx hy hz => by
    subst hx hy hz
    show Outcomes i st (if st.val z = 0 then _ else _)
    split
    · next h0 => exact .inl ⟨_, rfl, .zeroDivisor x y z hi (BitVec.eq_of_toNat_eq h0)⟩
    · exact outcomes_writeBack _ hd

theorem outcomes_push {v : Nat} (hv : v < 2 ^ 32) (hi : (∃ r : RegIdx, i = .stpush r) ∨ ∃ C, i = .stpushi C) :
    Outcomes i st (finish st (push v st)) := by
  rcases push_cases v st with ⟨hf, e⟩ | ⟨hf, e⟩
  · exact .inl ⟨_, by rw [e]; rfl, .fullStack hi hf⟩
  · exact .inr ⟨_, _, by rw [e]; rfl, .push v hi hv hf⟩

end

/-- Every instruction takes a fault for a cause, or completes with an effect. -/
theorem exec_outcomes (i : Instr) (st : State) : Outcomes i st (exec i st) := by
  cases i with
  | add d s t => simp only [exec, execAdd]; exact outcomes_regRegOp (i := .add d s t) _ rfl rfl
  | sub d s t => simp only [exec, execSub]; exact outcomes_regRegOp (i := .sub d s t) _ rfl rfl
  | addi t s C => simp only [exec, execAddi]; exact outcomes_regConstOp (i := .addi t s C) _ C rfl rfl
  | mult d s t => simp only [exec, execMult]; exact outcomes_regRegOp (i := .mult d s t) _ rfl rfl
  | fma d s t =>
    simp only [exec, execFma]
    exact outcomes_withRegs3 (by simp [Instr.registers]) (by simp [Instr.registers]) (by simp [Instr.registers])
      fun _ _ _ hx _ _ => outcomes_writeBack _ (hx ▸ rfl)
  | div d s t => simp only [exec, execDiv]; exact outcomes_divisionOp (i := .div d s t) _ rfl rfl (.inl rfl)
  | mod d s t => simp only [exec, execMod]; exact outcomes_divisionOp (i := .mod d s t) _ rfl rfl (.inr rfl)
  | and d s t => simp only [exec, execAnd]; exact outcomes_regRegOp (i := .and d s t) _ rfl rfl
  | or d s t => simp only [exec, execOr]; exact outcomes_regRegOp (i := .or d s t) _ rfl rfl
  | xor d s t => simp only [exec, execXor]; exact outcomes_regRegOp (i := .xor d s t) _ rfl rfl
  | andi t s C => simp only [exec, execAndi]; exact outcomes_regConstOp (i := .andi t s C) _ C rfl rfl
  | ori t s C => simp only [exec, execOri]; exact outcomes_regConstOp (i := .ori t s C) _ C rfl rfl
  | sll d t C => simp only [exec, execSll]; exact outcomes_regConstOp (i := .sll d t C) _ C rfl rfl
  | srl d t C => simp only [exec, execSrl]; exact outcomes_regConstOp (i := .srl d t C) _ C rfl rfl
  | li rd C =>
    simp only [exec, execLi]
    exact outcomes_withReg (by simp [Instr.registers]) fun _ hx => outcomes_writeBack _ (hx ▸ rfl)
  | lw t C s =>
    simp only [exec, execLw]
    refine outcomes_withRegs2 (by simp [Instr.registers]) (by simp [Instr.registers]) fun x y hx hy => ?_
    subst hx hy
    by_cases h : effAddr y C st < st.params.memCells
    · rw [memRead_ok h]; exact outcomes_writeBack _ rfl
    · rw [memRead_error (by omega)]
      exact .inl ⟨_, rfl, .accessBounds x y C (.inl rfl) (by omega)⟩
  | sw t C s =>
    simp only [exec, execSw]
    refine outcomes_withRegs2 (by simp [Instr.registers]) (by simp [Instr.registers]) fun x y hx hy => ?_
    subst hx hy
    by_cases h : effAddr y C st < st.params.memCells
    · rw [memWrite_ok h]
      refine .inr ⟨{ st with mem := st.mem.write (effAddr y C st) (st.reg x) }, none, ?_, .store x y C rfl h⟩
      simp [finish, State.val]
    · rw [memWrite_error (by omega)]
      exact .inl ⟨_, rfl, .accessBounds x y C (.inr rfl) (by omega)⟩
  | stpush r =>
    simp only [exec, execStpush]
    exact outcomes_withReg (by simp [Instr.registers]) fun x hx => by
      subst hx; exact outcomes_push (st.val_lt x) (.inl ⟨x, rfl⟩)
  | stpop rd =>
    simp only [exec, execStpop]
    refine outcomes_withReg (by simp [Instr.registers]) fun x hx => ?_
    subst hx
    rcases pop_cases st with ⟨he, e⟩ | ⟨v, rest, hs, e⟩
    · rw [e]; exact .inl ⟨_, rfl, .emptyStack x rfl he⟩
    · rw [e]; exact .inr ⟨_, _, rfl, .pop x v rest rfl hs⟩
  | stpushi C =>
    simp only [exec, execStpushi]
    exact outcomes_push (by have := C.isLt; omega) (.inr ⟨C, rfl⟩)
  | jal C => exact .inr ⟨_, _, rfl, .link C rfl⟩
  | jr r =>
    simp only [exec, execJr]
    refine outcomes_withReg (by simp [Instr.registers]) fun x hx => ?_
    subst hx; exact .inr ⟨_, _, rfl, .jump _ (.inl ⟨x, rfl⟩)⟩
  | j C => exact .inr ⟨_, _, rfl, .jump _ (.inr ⟨C, rfl⟩)⟩
  | pkr r =>
    simp only [exec, execPkr]
    refine outcomes_withReg (by simp [Instr.registers]) fun x hx => ?_
    subst hx; exact .inr ⟨_, _, rfl, .peekRegister x rfl⟩
  | pkm C =>
    simp only [exec, execPkm]
    by_cases h : C.toNat < st.params.memCells
    · rw [memRead_ok h]; exact .inr ⟨_, _, rfl, .peekCell C rfl h⟩
    · rw [memRead_error (by omega)]; exact .inl ⟨_, rfl, .peekBounds C rfl (by omega)⟩

/-- The cases of an instruction that answers a next state. -/
theorem exec_next {i : Instr} {st u : State} (h : exec i st = .next u) :
    (∃ f, u = { st with outcome := some (.fault f) } ∧ FaultCause i st f) ∨
      ∃ u' ret, u = { u' with outcome := some (.done ret) } ∧ Effect i st u' ret := by
  rcases exec_outcomes i st with ⟨f, e, hc⟩ | ⟨u', ret, e, he⟩
  · rw [e, raise_eq] at h
    exact .inl ⟨f, (Host.Outcome.next.inj h).symm, hc⟩
  · rw [e, complete] at h
    exact .inr ⟨u', ret, (Host.Outcome.next.inj h).symm, he⟩

end Sys2Proof.Machine
end

