-- ==== Sys2Proof/Laws/PerInstr.lean ====
section
/-! SUPPORT. Facts about every instruction as written, proved constructor by constructor: its operand values rebuild it,
and there are as many of them as its catalog row has slots. -/

namespace Sys2Proof.Laws.OperandsRebuild

/-- The operation and the operand values of an instruction determine it. -/
def Statement (i : Instr) : Prop := i.op.build i.operands = some i

theorem add (d : Nat) (s : Nat) (t : Nat) : Statement (.add d s t) := rfl
theorem sub (d : Nat) (s : Nat) (t : Nat) : Statement (.sub d s t) := rfl
theorem addi (t : Nat) (s : Nat) (C : Const) : Statement (.addi t s C) := by simp [Statement, Instr.op, Instr.operands, Op.build]
theorem mult (d : Nat) (s : Nat) (t : Nat) : Statement (.mult d s t) := rfl
theorem fma (d : Nat) (s : Nat) (t : Nat) : Statement (.fma d s t) := rfl
theorem div (d : Nat) (s : Nat) (t : Nat) : Statement (.div d s t) := rfl
theorem mod (d : Nat) (s : Nat) (t : Nat) : Statement (.mod d s t) := rfl
theorem and (d : Nat) (s : Nat) (t : Nat) : Statement (.and d s t) := rfl
theorem or (d : Nat) (s : Nat) (t : Nat) : Statement (.or d s t) := rfl
theorem xor (d : Nat) (s : Nat) (t : Nat) : Statement (.xor d s t) := rfl
theorem andi (t : Nat) (s : Nat) (C : Const) : Statement (.andi t s C) := by simp [Statement, Instr.op, Instr.operands, Op.build]
theorem ori (t : Nat) (s : Nat) (C : Const) : Statement (.ori t s C) := by simp [Statement, Instr.op, Instr.operands, Op.build]
theorem sll (d : Nat) (t : Nat) (C : Const) : Statement (.sll d t C) := by simp [Statement, Instr.op, Instr.operands, Op.build]
theorem srl (d : Nat) (t : Nat) (C : Const) : Statement (.srl d t C) := by simp [Statement, Instr.op, Instr.operands, Op.build]
theorem li (rd : Nat) (C : Const) : Statement (.li rd C) := by simp [Statement, Instr.op, Instr.operands, Op.build]
theorem lw (t : Nat) (C : Const) (s : Nat) : Statement (.lw t C s) := by simp [Statement, Instr.op, Instr.operands, Op.build]
theorem sw (t : Nat) (C : Const) (s : Nat) : Statement (.sw t C s) := by simp [Statement, Instr.op, Instr.operands, Op.build]
theorem stpush (r : Nat) : Statement (.stpush r) := rfl
theorem stpop (rd : Nat) : Statement (.stpop rd) := rfl
theorem stpushi (C : Const) : Statement (.stpushi C) := by simp [Statement, Instr.op, Instr.operands, Op.build]
theorem jal (C : Const) : Statement (.jal C) := by simp [Statement, Instr.op, Instr.operands, Op.build]
theorem jr (r : Nat) : Statement (.jr r) := rfl
theorem j (C : Const) : Statement (.j C) := by simp [Statement, Instr.op, Instr.operands, Op.build]
theorem pkr (r : Nat) : Statement (.pkr r) := rfl
theorem pkm (C : Const) : Statement (.pkm C) := by simp [Statement, Instr.op, Instr.operands, Op.build]

end Sys2Proof.Laws.OperandsRebuild

namespace Sys2Proof.Laws.SignatureArity

/-- An instruction has one operand value for each slot of its catalog row. -/
def Statement (i : Instr) : Prop := i.operands.length = (entry i.op).signature.length

theorem add (d : Nat) (s : Nat) (t : Nat) : Statement (.add d s t) := rfl
theorem sub (d : Nat) (s : Nat) (t : Nat) : Statement (.sub d s t) := rfl
theorem addi (t : Nat) (s : Nat) (C : Const) : Statement (.addi t s C) := rfl
theorem mult (d : Nat) (s : Nat) (t : Nat) : Statement (.mult d s t) := rfl
theorem fma (d : Nat) (s : Nat) (t : Nat) : Statement (.fma d s t) := rfl
theorem div (d : Nat) (s : Nat) (t : Nat) : Statement (.div d s t) := rfl
theorem mod (d : Nat) (s : Nat) (t : Nat) : Statement (.mod d s t) := rfl
theorem and (d : Nat) (s : Nat) (t : Nat) : Statement (.and d s t) := rfl
theorem or (d : Nat) (s : Nat) (t : Nat) : Statement (.or d s t) := rfl
theorem xor (d : Nat) (s : Nat) (t : Nat) : Statement (.xor d s t) := rfl
theorem andi (t : Nat) (s : Nat) (C : Const) : Statement (.andi t s C) := rfl
theorem ori (t : Nat) (s : Nat) (C : Const) : Statement (.ori t s C) := rfl
theorem sll (d : Nat) (t : Nat) (C : Const) : Statement (.sll d t C) := rfl
theorem srl (d : Nat) (t : Nat) (C : Const) : Statement (.srl d t C) := rfl
theorem li (rd : Nat) (C : Const) : Statement (.li rd C) := rfl
theorem lw (t : Nat) (C : Const) (s : Nat) : Statement (.lw t C s) := rfl
theorem sw (t : Nat) (C : Const) (s : Nat) : Statement (.sw t C s) := rfl
theorem stpush (r : Nat) : Statement (.stpush r) := rfl
theorem stpop (rd : Nat) : Statement (.stpop rd) := rfl
theorem stpushi (C : Const) : Statement (.stpushi C) := rfl
theorem jal (C : Const) : Statement (.jal C) := rfl
theorem jr (r : Nat) : Statement (.jr r) := rfl
theorem j (C : Const) : Statement (.j C) := rfl
theorem pkr (r : Nat) : Statement (.pkr r) := rfl
theorem pkm (C : Const) : Statement (.pkm C) := rfl

end Sys2Proof.Laws.SignatureArity
end

