-- ==== Sys2Proof/Tests/Slice0.lean ====
section
/-! SUPPORT. Tests: the well-formedness checks refuse what does not fit, the words of the spec decode, one step of each
instruction on a small state, the text form, and a witness for the hypotheses of every statement. The expected results are
those of spec/95_test_vectors.md (its row is named) or of the rule's own example. -/

namespace Sys2Proof.Tests

open Sys2Proof Sys2Proof.Machine

/-! ### Helpers -/

/-- The state an outcome leads to. -/
def nextState : Host.Outcome State Fault Refusal → Option State
  | .next u => some u
  | .fault _ => none
  | .refused _ => none

/-- The default construction state with these registers. -/
def withRegisters (rs : List (RegIdx × Int)) : State := rs.foldl (fun st r => st.setReg r.1 r.2) State.reset

/-- A new core with 100 cells. -/
def smallMemory : State := State.construct { Params.default with memCells := 100 } Config.initRegs [] 0

/-- A new core with one cell and room for one stack entry. -/
def depthOne : State :=
  State.construct { Params.default with memCells := 1, stackDepth := some 1 } Config.initRegs [] 0

/-- A catalog other than the default one: `add` and `sub` have exchanged their pairs, `pkr` has none, `addi` and `mult` have
exchanged their families and pairs, and the scan order is reversed. -/
def otherCatalog : List Entry :=
  (catalog.map fun e =>
    match e.op with
    | .add => { e with code := (entry .sub).code }
    | .sub => { e with code := (entry .add).code }
    | .addi => { e with code := (entry .mult).code, family := .registerForm }
    | .mult => { e with code := (entry .addi).code, family := .immediateForm }
    | .pkr => { e with code := none }
    | _ => e).reverse

/-- A core with that catalog, 5 in register 8 and 7 in register 9. -/
def otherCore : State :=
  { withRegisters [(8, 5), (9, 7)] with params := { Params.default with catalog := otherCatalog } }

/-- The state after a step in which the host presents a word. -/
def afterWord (w : Word) (st : State) : Option State := nextState (step { st with requests := [.word w] })

/-- The reported outcome of that step. -/
def reports (w : Word) (st : State) : Option TxOutcome := (afterWord w st).bind State.outcome

/-- The value of a register after that step. -/
def regAfter (w : Word) (st : State) (j : RegIdx) : Option Word := (afterWord w st).map fun u => u.reg j

/-- That step changed nothing but the reported outcome, which is `o`. -/
def onlyReports (w : Word) (st : State) (o : TxOutcome) : Bool := afterWord w st == some { st with outcome := some o }

/-! ### Well-formedness -/

theorem test_wf_refuses_add :
    [Instr.add 32 0 0, .add 0 32 0, .add 0 0 32].map Instr.wf = [false, false, false] := by decide

theorem test_wf_refuses_sub :
    [Instr.sub 32 0 0, .sub 0 32 0, .sub 0 0 32].map Instr.wf = [false, false, false] := by decide

theorem test_wf_refuses_mult :
    [Instr.mult 32 0 0, .mult 0 32 0, .mult 0 0 32].map Instr.wf = [false, false, false] := by decide

theorem test_wf_refuses_fma :
    [Instr.fma 32 0 0, .fma 0 32 0, .fma 0 0 32].map Instr.wf = [false, false, false] := by decide

theorem test_wf_refuses_div :
    [Instr.div 32 0 0, .div 0 32 0, .div 0 0 32].map Instr.wf = [false, false, false] := by decide

theorem test_wf_refuses_mod :
    [Instr.mod 32 0 0, .mod 0 32 0, .mod 0 0 32].map Instr.wf = [false, false, false] := by decide

theorem test_wf_refuses_and :
    [Instr.and 32 0 0, .and 0 32 0, .and 0 0 32].map Instr.wf = [false, false, false] := by decide

theorem test_wf_refuses_or :
    [Instr.or 32 0 0, .or 0 32 0, .or 0 0 32].map Instr.wf = [false, false, false] := by decide

theorem test_wf_refuses_xor :
    [Instr.xor 32 0 0, .xor 0 32 0, .xor 0 0 32].map Instr.wf = [false, false, false] := by decide

theorem test_wf_refuses_addi : [Instr.addi 32 0 0, .addi 0 32 0].map Instr.wf = [false, false] := by decide

theorem test_wf_refuses_andi : [Instr.andi 32 0 0, .andi 0 32 0].map Instr.wf = [false, false] := by decide

theorem test_wf_refuses_ori : [Instr.ori 32 0 0, .ori 0 32 0].map Instr.wf = [false, false] := by decide

theorem test_wf_refuses_sll :
    [Instr.sll 32 0 0, .sll 0 32 0, .sll 0 0 32].map Instr.wf = [false, false, false] := by decide

theorem test_wf_refuses_srl :
    [Instr.srl 32 0 0, .srl 0 32 0, .srl 0 0 32].map Instr.wf = [false, false, false] := by decide

theorem test_wf_refuses_lw : [Instr.lw 32 0 0, .lw 0 0 32].map Instr.wf = [false, false] := by decide

theorem test_wf_refuses_sw : [Instr.sw 32 0 0, .sw 0 0 32].map Instr.wf = [false, false] := by decide

theorem test_wf_refuses_one_slot :
    [Instr.li 32 0, .stpush 32, .stpop 32, .jr 32, .pkr 32].map Instr.wf = List.replicate 5 false := by decide

theorem test_wf_accepts_largest :
    [Instr.add 31 31 31, .addi 31 31 65535, .sll 31 31 31, .lw 31 65535 31, .pkr 31, .j 65535].map Instr.wf =
      List.replicate 6 true := by decide

/-! ### Decoding: the words of the spec, each laid out by hand from its encoding in 30_encoding.md R52 -/

theorem test_decode_add : decode 0b00000001010010000100100000000001 = some (.add 10 8 9) := by decide

theorem test_decode_sub : decode 0b00000001010010000100100000000010 = some (.sub 10 8 9) := by decide

theorem test_decode_addi : decode 0b00000101001010000000000000000001 = some (.addi 9 8 1) := by decide

theorem test_decode_mult : decode 0b00000001011010000100100000000011 = some (.mult 11 8 9) := by decide

theorem test_decode_fma : decode 0b00000001100010000100100000000100 = some (.fma 12 8 9) := by decide

theorem test_decode_div : decode 0b00000010011010001001000000000101 = some (.div 19 8 18) := by decide

theorem test_decode_mod : decode 0b00000010100010001001000000000110 = some (.mod 20 8 18) := by decide

theorem test_decode_and : decode 0b00000010000010000110000000000111 = some (.and 16 8 12) := by decide

theorem test_decode_or : decode 0b00000010001011000101100000001000 = some (.or 17 12 11) := by decide

theorem test_decode_xor : decode 0b00000001110010000110000000001001 = some (.xor 14 8 12) := by decide

theorem test_decode_andi : decode 0b00001001111010000000000011111111 = some (.andi 15 8 255) := by decide

theorem test_decode_ori : decode 0b00001101001010001111111111111111 = some (.ori 9 8 65535) := by decide

theorem test_decode_sll : decode 0b00000001001010000000100000001010 = some (.sll 9 8 1) := by decide

theorem test_decode_srl : decode 0b00000001101010001111100000001011 = some (.srl 13 8 31) := by decide

theorem test_decode_li : decode 0b00010001000000000000000000000101 = some (.li 8 5) := by decide

theorem test_decode_lw : decode 0b00010101001001000000000000000111 = some (.lw 9 7 4) := by decide

theorem test_decode_sw : decode 0b00011001010010001111111111111111 = some (.sw 10 65535 8) := by decide

theorem test_decode_stpush : decode 0b00000001001000000000000000001100 = some (.stpush 9) := by decide

theorem test_decode_stpop : decode 0b00000010010000000000000000001101 = some (.stpop 18) := by decide

theorem test_decode_stpushi : decode 0b00011100000000000000000000000111 = some (.stpushi 7) := by decide

theorem test_decode_jal : decode 0b00100000000000000000000001100100 = some (.jal 100) := by decide

theorem test_decode_jr : decode 0b00000000001000000000000000001110 = some (.jr 1) := by decide

theorem test_decode_j : decode 0b00100100000000001111111111111110 = some (.j 65534) := by decide

theorem test_decode_pkr : decode 0b00000001010000000000000000001111 = some (.pkr 10) := by decide

theorem test_decode_pkm : decode 0b00101000000000001111111111111111 = some (.pkm 65535) := by decide

/-- VD1, VD2, VD4, VD5, VD7, VD8, VD10, VD12, VD13. -/
theorem test_decode_none :
    [0x00000000, 0xFFFFFFFF, 0x00000041, 0x00000010, 0x2C000000, 0xFC000001, 0x0021000C, 0x10010000, 0x1C010000].map
      decode = List.replicate 9 none := by decide

/-- VD16, VD17, VD20: register fields of 30 and 31 are instructions. -/
theorem test_decode_unassigned_registers :
    [0x03FFF80B, 0x03DEF001, 0x191E0000].map decode =
      [some (.srl 31 31 31), some (.add 30 30 30), some (.sw 8 0 30)] := by decide

theorem test_decodeTableWord : decodeTableWord 32 0x01484801 = some (.add 10 8 9) := by decide

/-- S3. -/
theorem test_encode_example : encode (.add 2 3 2) = 0x00431001 := by decide

/-- VT2, VT5. -/
theorem test_encode_truncates : encode (.add 35 0 0) = 0x00600001 ∧ encode (.sll 8 8 40) = 0x0108400A := by decide

/-! ### One step of each instruction -/

/-- VA1. -/
theorem test_add_wraps :
    regAfter 0x01484801 (withRegisters [(8, 0xFFFFFFFF), (9, 1), (10, 0x55)]) 10 = some 0 := by decide

/-- VA2. -/
theorem test_add_same_register : regAfter 0x01084001 (withRegisters [(8, 0x80000000)]) 8 = some 0 := by decide

/-- VA3. -/
theorem test_sub_wraps : regAfter 0x01484802 (withRegisters [(8, 5), (9, 7)]) 10 = some 0xFFFFFFFE := by decide

/-- VA7. -/
theorem test_addi_unsigned : regAfter 0x0508FFFF (withRegisters [(8, 10)]) 8 = some 0x00010009 := by decide

/-- VA11. -/
theorem test_mult_low :
    regAfter 0x01484803 (withRegisters [(8, 0x12345678), (9, 0x9ABCDEF0)]) 10 = some 0x242D2080 := by decide

/-- VA14. -/
theorem test_fma_reads_old : regAfter 0x01084004 (withRegisters [(8, 3)]) 8 = some 12 := by decide

/-- VA15. -/
theorem test_fma_wraps :
    regAfter 0x01484804 (withRegisters [(8, 0xFFFFFFFF), (9, 0xFFFFFFFF), (10, 0xFFFFFFFF)]) 10 = some 0 := by decide

/-- VA21. -/
theorem test_div_unsigned :
    regAfter 0x02689005 (withRegisters [(8, 0xFFFFFFFF), (18, 7)]) 19 = some 0x24924924 := by decide

/-- VA25. -/
theorem test_div_by_zero :
    onlyReports 0x00080005 (withRegisters [(8, 7)]) (.fault .arithmeticError) = true := by decide

/-- VA19. -/
theorem test_mod_unsigned :
    regAfter 0x01484806 (withRegisters [(8, 0x80000000), (9, 0xFFFFFFFF), (10, 0x55)]) 10 = some 0x80000000 := by decide

/-- S7. -/
theorem test_mod_by_zero :
    onlyReports 0x01280006 (withRegisters [(8, 9)]) (.fault .arithmeticError) = true := by decide

/-- VB1. -/
theorem test_and :
    regAfter 0x01484807 (withRegisters [(8, 0xF0F0F0F0), (9, 0x0FF00FF0)]) 10 = some 0x00F000F0 := by decide

/-- VB2. -/
theorem test_or :
    regAfter 0x01484808 (withRegisters [(8, 0xF0F0F0F0), (9, 0x0FF00FF0)]) 10 = some 0xFFF0FFF0 := by decide

/-- VB3. -/
theorem test_xor :
    regAfter 0x01484809 (withRegisters [(8, 0xF0F0F0F0), (9, 0x0FF00FF0)]) 10 = some 0xFF00FF00 := by decide

/-- VB4. -/
theorem test_andi_zero_extends :
    regAfter 0x0928FFFF (withRegisters [(8, 0x12345678)]) 9 = some 0x00005678 := by decide

/-- VB5. -/
theorem test_ori_zero_extends :
    regAfter 0x0D28FFFF (withRegisters [(8, 0x12345678)]) 9 = some 0x1234FFFF := by decide

/-- VB8. -/
theorem test_sll_loses_the_top :
    regAfter 0x0128080A (withRegisters [(8, 0x80000001)]) 9 = some 0x00000002 := by decide

/-- VB9. -/
theorem test_srl_is_logical :
    regAfter 0x0128080B (withRegisters [(8, 0x80000001)]) 9 = some 0x40000000 := by decide

/-- VM1. -/
theorem test_li : regAfter 0x1100FFFF (withRegisters [(8, 0x1234)]) 8 = some 0x0000FFFF := by decide

/-- VM4, S5. -/
theorem test_li_to_register_zero : onlyReports 0x10000007 State.reset (.done none) = true := by decide

/-- VM6. -/
theorem test_lw_reads_the_old_base :
    regAfter 0x15080000 { withRegisters [(8, 5)] with mem := [(5, 9)] } 8 = some 9 := by decide

/-- VM12. -/
theorem test_lw_does_not_wrap :
    onlyReports 0x15490001 (withRegisters [(9, 0xFFFFFFFF)]) (.fault (.boundsError 4294967296)) = true := by decide

/-- VM8. -/
theorem test_sw_last_cell :
    (afterWord 0x1948FFFF (withRegisters [(8, 0x90000), (10, 77)])).map State.mem = some [(655359, 77)] := by decide

/-- VM10. -/
theorem test_sw_past_the_end :
    onlyReports 0x19490001 (withRegisters [(9, 0x9FFFF), (10, 77)]) (.fault (.boundsError 655360)) = true := by decide

/-- VK1. -/
theorem test_stpush :
    (afterWord 0x0100000C (withRegisters [(8, 0xFFFFFFFF)])).map State.stack = some [4294967295] := by decide

/-- VK4 (the model lists the top first). -/
theorem test_stpushi_on_top :
    (afterWord 0x1C000003 { State.reset with stack := [2, 1] }).map State.stack = some [3, 2, 1] := by decide

/-- VK5. -/
theorem test_stpop :
    (afterWord 0x0100000D { State.reset with stack := [2, 1] }).map (fun u => (u.reg 8, u.stack)) = some (2, [1]) := by decide

/-- VK6. -/
theorem test_stpop_to_register_zero :
    afterWord 0x0000000D { State.reset with stack := [2, 1] } =
      some { State.reset with stack := [1], outcome := some (.done none) } := by decide

/-- VJ1. -/
theorem test_jal :
    (afterWord 0x20000064 { withRegisters [(1, 99)] with pc := 5 }).map (fun u => (u.reg 1, u.pc)) = some (6, 100) := by decide

/-- VJ3. -/
theorem test_jal_masks_the_link :
    (afterWord 0x20000000 { State.reset with pc := 2 ^ 40 }).map (fun u => (u.reg 1, u.pc)) = some (1, 0) := by decide

/-- VJ4. -/
theorem test_jr :
    (afterWord 0x0020000E { withRegisters [(1, 0xFFFFFFFF)] with pc := 10 }).map State.pc = some 4294967295 := by decide

/-- VJ8. -/
theorem test_j_never_wraps :
    (afterWord 0x24000001 { State.reset with pc := 4294967295 }).map State.pc = some 4294967296 := by decide

/-- VQ1. -/
theorem test_pkr :
    onlyReports 0x0100000F (withRegisters [(8, 0xDEADBEEF)]) (.done (some 0xDEADBEEF)) = true := by decide

/-- VQ3. -/
theorem test_pkm :
    onlyReports 0x2800FFFF { State.reset with mem := [(65535, 0xCAFE)] } (.done (some 0xCAFE)) = true := by decide

/-- VQ6. -/
theorem test_pkm_small_memory :
    onlyReports 0x28000064 smallMemory (.fault (.boundsError 100)) = true := by decide

/-- VD4. -/
theorem test_skip : onlyReports 0x00000041 (withRegisters [(8, 5)]) .noInstruction = true := by decide

/-- VD21, VK8. -/
theorem test_register_fault_first :
    reports 0x03C00005 State.reset = some (.fault .registerIndexFault) ∧
      onlyReports 0x03E0000D { State.reset with stack := [2, 1] } (.fault .registerIndexFault) = true := by decide

/-- VD18. -/
theorem test_last_register : regAfter 0x03BDE801 (withRegisters [(29, 4)]) 29 = some 8 := by decide

/-! ### Memory keeps its canonical form -/

theorem test_write_zero_removes : Memory.write [(3, 9), (5, 1)] 3 0 = [(5, 1)] := by decide

theorem test_write_sorts : Memory.write [(3, 9), (7, 1)] 5 2 = [(3, 9), (5, 2), (7, 1)] := by decide

/-! ### The text form -/

/-- The state after executing a text. -/
def afterText (t : String) (st : State) : Option State := nextState (step { st with requests := [.text t.toList] })

/-- VB14. -/
theorem test_text_shift_by_32 :
    (afterText "sll $t1, $t0, 32" (withRegisters [(8, 0x80000001), (9, 0x55)])).map (fun u => u.reg 9) = some 0 := by decide

/-- VB16. -/
theorem test_text_shift_by_40 :
    (afterText "srl $t1, $t0, 40" (withRegisters [(8, 0x80000001), (9, 0x55)])).map (fun u => u.reg 9) = some 0 := by decide

/-- VT3. -/
theorem test_text_register_not_truncated :
    (afterText "add $35, $0, $0" State.reset).bind State.outcome = some (.fault .registerIndexFault) := by decide

/-- VT16. -/
theorem test_text_white_space :
    (afterText "add  $t0 ,$t1 , $t2" (withRegisters [(9, 2), (10, 3)])).map (fun u => u.reg 8) = some 5 := by decide

/-- VT17. -/
theorem test_text_unknown_mnemonic :
    (afterText "nop $$$" State.reset).bind State.outcome = some .noInstruction := by decide

/-- VT11 to VT15; and no operand at all. -/
theorem test_text_parse_errors :
    ["add $t0, $t1", "add $t0, $t1, 5", "li $t0, $t1", "li $foo, 1", "li $t0, 0x10", "li $t0, +5", "stpush"].map
      (fun t => ((afterText t State.reset).bind State.outcome).map TxOutcome.status) = List.replicate 7 (some 6) := by decide

/-- VT1, VT2, VT4 to VT9. -/
theorem test_compile_text :
    ["add $v0, $v1, $v0", "add $35, $0, $0", "pkr $31", "sll $8, $8, 40", "li $8, -1", "j -2", "lw $t1, 7, $a0",
      "div $t0, $t0, $zero"].map (fun t => (compileText catalog t.toList).toOption) =
      [0x00431001, 0x00600001, 0x03E0000F, 0x0108400A, 0x1100FFFF, 0x2400FFFE, 0x15240007, 0x01080005].map
        (fun w => some (some w)) := by decide

/-- VT10. -/
theorem test_compile_nothing : (compileText catalog "nop".toList).toOption = some none := by decide

/-- S9. -/
theorem test_constants_are_masked :
    ["5", "65535", "65536", "70000", "-1", "-2", "-65536"].map (fun t => parseConstant t.toList) =
      [5, 65535, 0, 4464, 65535, 65534, 0].map some := by decide

/-- 10_state.md R14. -/
theorem test_register_names :
    (registerNames.map fun n => parseRegister ('$' :: n)) = (List.range 28).map some ∧
      (["zero", "ra", "v0", "a0", "t0", "t9", "s0", "s9"].map fun n => parseRegister ('$' :: n.toList)) =
        [0, 1, 2, 4, 8, 17, 18, 27].map some := by decide

/-- 30_encoding.md R61. -/
theorem test_register_by_number :
    (["$28", "$35", "$foo", "t0", "$t10", "$"].map fun t => parseRegister t.toList) =
      [some 28, some 35, none, none, none, none] := by decide

/-! ### Another catalog (00_scope.md R5): its pairs, families and order decide, and an entry without a pair is reached by a
text alone (30_encoding.md R53, R66, 40_dispatch.md R74) -/

theorem test_not_encodable : compileText otherCatalog "pkr $8".toList = .ok none := rfl

theorem test_other_pairs :
    regAfter 0x01484801 otherCore 10 = some 0xFFFFFFFE ∧ regAfter 0x01484802 otherCore 10 = some 12 := by decide

theorem test_other_families :
    regAfter 0x01484803 otherCore 10 = some 14 ∧ regAfter 0x05484800 otherCore 10 = some 35 := by decide

theorem test_entry_without_a_pair :
    onlyReports 0x0100000F otherCore .noInstruction = true ∧
      (nextState (executeText "pkr $8".toList otherCore)).bind State.outcome = some (.done (some 5)) := by decide

/-! ### Witnesses: a state and operands that meet the hypotheses of each statement, clause by clause -/

/-- The `RegisterIndexFault` clauses of every instruction with a Register slot, and `RegisterIndexFaultComesFirst`. -/
theorem witness_invalid_register :
    numRegs ≤ 30 ∧ (30 : Nat) ∈ (Instr.pkr 30).registers ∧ ¬ (29 ≥ numRegs) := by decide

/-- Both clauses of `DivWritesTheUnsignedQuotient` and `ModWritesTheUnsignedRemainder`. -/
theorem witness_divisor : (withRegisters [(9, 1)]).reg 9 ≠ 0 ∧ (withRegisters [(9, 1)]).reg 0 = 0 := by decide

/-- Both clauses of `LwLoadsTheCell` and `SwStoresTheRegister`, at cells 655359 and 655360; `MemoryAccessesAreBoundsChecked`. -/
theorem witness_address_bounds :
    effAddr 8 65535 (withRegisters [(8, 0x90000)]) < State.reset.params.memCells ∧
      State.reset.params.memCells ≤ effAddr 8 1 (withRegisters [(8, 0x9FFFF)]) := by decide

/-- Both clauses of `PkmReturnsTheCell`. -/
theorem witness_peek_bounds :
    (99 : Const).toNat < smallMemory.params.memCells ∧
      smallMemory.params.memCells ≤ (100 : Const).toNat := by decide

/-- The completing clause of `StpushPushesTheRegister` and `StpushiPushesTheConstant`: unbounded, and one entry short of full. -/
theorem witness_push_room :
    (∀ n, State.reset.params.stackDepth = some n → State.reset.stack.length < n) ∧
      ∀ n, depthOne.params.stackDepth = some n →
        depthOne.stack.length < n := by
  constructor
  · intro n h; cases h
  · intro n h; cases h; decide

/-- Their `StackOverflow` clause. -/
theorem witness_push_full :
    ({ depthOne with stack := [5] } : State).params.stackDepth = some 1 ∧
      1 ≤ ({ depthOne with stack := [5] } : State).stack.length := by decide

/-- 60_exceptions.md R160 at that state. -/
theorem witness_push_overflow :
    onlyReports 0x1C000003 { depthOne with stack := [5] } (.fault .stackOverflow) =
      true := by decide

/-- Both clauses of `StpopPopsIntoTheRegister`. -/
theorem witness_pop :
    ({ State.reset with stack := [2, 1] } : State).stack = 2 :: [1] ∧ State.reset.stack = [] := by decide

/-- `RegisterWritesAreMasked`. -/
theorem witness_register_write : (1 : RegIdx) ≠ 0 ∧ (2 : RegIdx) ≠ 1 := by decide

/-- `InvariantHoldsAtConstruction`. -/
theorem witness_construction :
    Params.default.wf ∧ Memory.wf [(0, 1), (655359, 2)] ∧
      ∀ c ∈ ([(0, 1), (655359, 2)] : Memory), c.1 < Params.default.memCells := by decide

/-- `EveryStepKeepsTheInvariant`, at a state whose step stores the last cell. -/
theorem witness_step_invariant :
    State.Inv { withRegisters [(8, 0x90000), (10, 77)] with requests := [.word 0x1948FFFF], stack := [3] } ∧
      ∃ u, step { withRegisters [(8, 0x90000), (10, 77)] with requests := [.word 0x1948FFFF], stack := [3] } = .next u :=
  ⟨⟨by decide, by decide, by decide, (by intro n h; cases h), by decide⟩, _, rfl⟩

/-- The clauses of `StepRunsTheDecodedWord`, with the default catalog and with another. -/
theorem witness_step :
    (State.reset.withFetchWord 32 0x01484801).requests = .word 0x01484801 :: [] ∧
      decodeWith State.reset.params.catalog 0x01484801 = some (.add 10 8 9) ∧
      decodeWith otherCore.params.catalog 0x01484801 = some (.sub 10 8 9) ∧
      decodeWith otherCore.params.catalog 0x0100000F = none := by decide

/-- Both cases of `UnmatchedRequestIsSkipped`. -/
theorem witness_unmatched :
    (∀ e ∈ State.reset.params.catalog, e.accepts 0 = false) ∧
      ∀ e ∈ State.reset.params.catalog, e.op.mnemonic ≠ (splitMnemonic "nop".toList).1 := by decide

/-- The clauses of `ExecuteTextRunsTheParsedOperands`. -/
theorem witness_text :
    lookupMnemonic State.reset.params.catalog (splitMnemonic "nop".toList).1 = none ∧
      (CatalogWf State.reset.params.catalog ∧ CatalogFits State.reset.params.catalog) ∧
      lookupMnemonic State.reset.params.catalog (splitMnemonic "li $t0, 5".toList).1 = some (entry .li) ∧
      (parseOperands (entry .li).signature (splitMnemonic "li $t0, 5".toList).2).toOption = some [8, 5] ∧
      (parseOperands (entry .li).signature (splitMnemonic "li $t0, x".toList).2).toOption = none := by decide

/-- The error it names. -/
theorem witness_parse_error :
    parseOperands (entry .li).signature (splitMnemonic "li $t0, x".toList).2 = .error (.parseError ['x']) := rfl

/-- `WordAndTextPathsAgree`, at the largest shift amount of a word. -/
theorem witness_paths :
    parseText catalog "sll $t0, $t1, 31".toList = .ok (some (.sll 8 9 31)) ∧ (Instr.sll 8 9 31).wf = true ∧
      State.reset.params.catalog = catalog := ⟨rfl, by decide, rfl⟩

/-- The first two clauses of `CompileTextFailsOnlyToParse`: no entry, an entry without a pair, an entry with one. -/
theorem witness_compile_nothing :
    lookupMnemonic otherCatalog (splitMnemonic "nop".toList).1 = none ∧
      (lookupMnemonic otherCatalog (splitMnemonic "pkr $8".toList).1).map Entry.code = some none ∧
      (lookupMnemonic otherCatalog (splitMnemonic "add $8".toList).1).map Entry.code = some (entry .sub).code ∧
      ∀ e ∈ catalog, e.op.mnemonic ≠ (splitMnemonic "nop".toList).1 := by decide

/-- Its last clause. -/
theorem witness_compile_error : compileText catalog "li $t0, x".toList = .error (.parseError ['x']) := rfl

/-- The second clause of `NoStepStopsTheMachine`. -/
theorem witness_idle : State.reset.requests = [] := rfl

/-- `FailedTransactionChangesNothing`: a fault and a word that matches nothing. -/
theorem witness_failed :
    (∃ u, transact (.word 0x01280005) State.reset = .next u ∧ u.outcome = some (.fault .arithmeticError)) ∧
      ∃ u, transact (.word 0) State.reset = .next u ∧ u.outcome = some .noInstruction :=
  ⟨⟨_, rfl, rfl⟩, _, rfl, rfl⟩

/-- The second clause of `RegisterIndexFaultComesFirst`, at the largest valid index. -/
theorem witness_valid_registers :
    (∀ r ∈ (Instr.add 29 29 29).registers, r < numRegs) ∧ ∃ u, exec (.add 29 29 29) State.reset = .next u :=
  ⟨by decide, _, rfl⟩

/-- The five clauses of `EachFaultHasItsCause`. -/
theorem witness_fault_causes :
    (∃ u, exec (.div 1 1 0) State.reset = .next u ∧ u.outcome = some (.fault .arithmeticError)) ∧
      (∃ u, exec (.lw 9 1 9) (withRegisters [(9, 0x9FFFF)]) = .next u ∧
        u.outcome = some (.fault (.boundsError 655360))) ∧
      (∃ u, exec (.stpop 1) State.reset = .next u ∧ u.outcome = some (.fault .stackUnderflow)) ∧
      (∃ u, exec (.stpushi 3) { depthOne with stack := [5] } = .next u ∧
        u.outcome = some (.fault .stackOverflow)) ∧
      ∃ u, exec (.j 0) State.reset = .next u ∧ u.outcome = some (.done none) :=
  ⟨⟨_, rfl, rfl⟩, ⟨_, rfl, rfl⟩, ⟨_, rfl, rfl⟩, ⟨_, rfl, rfl⟩, _, rfl, rfl⟩

/-- `EffectsDependOnTheCoreAlone`, `EveryInstructionEndsInAnOutcome`, `OnlyJumpsChangeThePc`, `OnlySwChangesMemory` and
`OnlyPushAndPopMoveTheStack`: an instruction that answers a next state in which the named part does change. -/
theorem witness_changes :
    (∃ u, exec (.j 1) State.reset = .next u ∧ u.pc ≠ State.reset.pc) ∧
      (∃ u, exec (.sw 8 0 0) (withRegisters [(8, 42)]) = .next u ∧ u.mem ≠ State.reset.mem) ∧
      ∃ u, exec (.stpush 0) State.reset = .next u ∧ u.stack ≠ State.reset.stack :=
  ⟨⟨_, rfl, by decide⟩, ⟨_, rfl, by decide⟩, _, rfl, by decide⟩

/-- `OnlyTheDestinationChanges` and `OnlyPeeksReturnAValue`. -/
theorem witness_destination_and_peek :
    (∃ u, exec (.li 29 5) State.reset = .next u ∧ u.reg 29 ≠ State.reset.reg 29) ∧
      ∃ u, exec (.pkr 0) State.reset = .next u ∧ u.outcome = some (.done (some 0)) :=
  ⟨⟨_, rfl, by decide⟩, _, rfl, rfl⟩

/-- `LoadSeesTheStoreBeforeIt`: a store that completes, then the same cell, and the last cell. -/
theorem witness_store_then_load :
    ∃ u, exec (.sw 8 0 0) (withRegisters [(8, 42)]) = .next u ∧ u.outcome = some (.done none) ∧
      effAddr 0 0 u < u.params.memCells ∧ effAddr 0 0 u = effAddr 0 0 (withRegisters [(8, 42)]) ∧
      effAddr 0 65535 u < u.params.memCells :=
  ⟨_, rfl, rfl, by decide, rfl, by decide⟩

/-- Both clauses of `PushThenPopMovesTheValue`. -/
theorem witness_push_then_pop :
    (∃ u, exec (.stpush 8) State.reset = .next u ∧ u.outcome = some (.done none)) ∧
      ∃ u, exec (.stpushi 7) State.reset = .next u ∧ u.outcome = some (.done none) :=
  ⟨⟨_, rfl, rfl⟩, _, rfl, rfl⟩

/-- `ThreeWordsLoadAnyConstant`: the words of P4, steps 1 to 3. -/
theorem witness_three_words :
    (8 : RegIdx) ≠ 0 ∧ State.reset.params.catalog = catalog ∧
      ({ State.reset with requests := [.word 0x1100FFFF, .word 0x0108800A, .word 0x0D08FFFF] } : State).requests =
        .word (encode (.li (8 : RegIdx) ((0xFFFFFFFF : Word).extractLsb' 16 16))) ::
          .word (encode (.sll (8 : RegIdx) (8 : RegIdx) 16)) ::
          .word (encode (.ori (8 : RegIdx) (8 : RegIdx) ((0xFFFFFFFF : Word).extractLsb' 0 16))) :: [] := by
  decide

/-- `DecodeAfterEncode` and `EncodeAfterDecode`. -/
theorem witness_encode : (Instr.sll 31 0 31).wf = true ∧ decode 0x03E0F80A = some (.sll 31 0 31) := by decide

/-- The three clauses of `CatalogCheckMakesDecodingUnique`. -/
theorem witness_catalog :
    CatalogWf catalog ∧ entry .add ∈ catalog ∧ (entry .add).accepts 0x01484801 = true ∧
      catalog.Perm catalog.reverse ∧ MaskMatch.proper ⟨0xFC0007FF, 1⟩ ∧ MaskMatch.proper ⟨0xFC000000, 0x04000000⟩ :=
  ⟨catalog_wf, entry_mem .add, by decide, (List.reverse_perm catalog).symm, by decide, by decide⟩

/-- `DecodingFollowsTheCatalog`, with the default catalog and with another: both are well formed, an entry of it and a word
that the entry matches, and a word that no entry matches. -/
theorem witness_other_catalog :
    Params.default.wf ∧ otherCore.params.wf ∧
      (∃ e c, e ∈ otherCatalog ∧ e.code = some c ∧ (0x05484800 : Word) &&& c.mask = c.pattern ∧ e.op = .mult) ∧
      ∀ e ∈ otherCatalog, ∀ c, e.code = some c → (0 : Word) &&& c.mask ≠ c.pattern := by
  refine ⟨by decide, by decide, ⟨{ entry .mult with code := (entry .addi).code, family := .immediateForm }, _,
    by decide, rfl, by decide, rfl⟩, ?_⟩
  have h : ∀ c ∈ codes otherCatalog, (0 : Word) &&& c.mask ≠ c.pattern := by decide
  exact fun e he c hc => h c (List.mem_filterMap.mpr ⟨e, he, hc⟩)

/-- `AssemblerTruncatesToTheField`. -/
theorem witness_register_form : (entry .add).family = .registerForm := rfl

/-- The three clauses of `IllFormedOperandsDoNotParse`. -/
theorem witness_ill_formed :
    (tokens " $t0".toList).length ≠ (entry .li).signature.length ∧
      (entry .li).signature[1]? = some .constant ∧ (tokens " $t0, $t1".toList)[1]? = some "$t1".toList ∧
      parseOperand .constant "$t1".toList = none ∧
      (parseOperands (entry .li).signature " $t0, 5".toList).toOption = some [8, 5] := by decide

end Sys2Proof.Tests
end

/-! Register writes (10_state.md R12, R13): the number a masked value stands for, the frame of a register write as one
equation, and the statement about both. -/

namespace Sys2Proof.Machine

/-- `mask_32` as a number (00_scope.md R8): also a negative integer is taken modulo 2^32. -/
theorem toNat_mask32 (v : Int) : ((mask32 v).toNat : Int) = v % 2 ^ 32 := by
  have hnonneg : 0 ≤ v % 2 ^ 32 := Int.emod_nonneg v (by decide)
  rw [mask32, BitVec.toNat_ofInt]
  exact Int.toNat_of_nonneg hnonneg

theorem State.reg_setReg_same {i : RegIdx} (hi : i ≠ 0) (v : Int) (st : State) : (st.setReg i v).reg i = mask32 v := by
  rw [State.reg_setReg, if_pos ⟨rfl, hi⟩]

theorem State.reg_setReg_of_ne {i j : RegIdx} (hji : j ≠ i) (v : Int) (st : State) :
    (st.setReg i v).reg j = st.reg j := by
  rw [State.reg_setReg, if_neg fun h => hji h.1]

/-- The frame of a register write over the whole state, the fields outside the core included. -/
theorem State.setReg_eq_with_gpr (i : RegIdx) (v : Int) (st : State) :
    st.setReg i v = { st with gpr := (st.setReg i v).gpr } := by
  unfold State.setReg
  split <;> rfl

/-- Settles O26: the equations of a register read after a write, and the frame of the write. -/
theorem registerWritesAreMasked : Obligations.RegisterWritesAreMasked := by
  refine ⟨State.reg_zero, fun st v => State.setReg_zero v st, fun st i v hi => ⟨?masked, ?others, ?frame⟩⟩
  case masked => rw [State.reg_setReg_same hi, toNat_mask32]
  case others => exact fun j hji => State.reg_setReg_of_ne hji v st
  case frame => exact State.setReg_eq_with_gpr i v st

end Sys2Proof.Machine

/-! Memory accesses (20_memory.md R32, R33): a read after a write at the same and at another cell, and the statement about
the two primitives. -/

namespace Sys2Proof.Machine

theorem Memory.read_write_same (m : Memory) (a : Nat) (v : Word) : (m.write a v).read a = v := by
  rw [Memory.read_write, if_pos rfl]

theorem Memory.read_write_of_ne {a b : Nat} (hba : b ≠ a) (m : Memory) (v : Word) :
    (m.write a v).read b = m.read b := by
  rw [Memory.read_write, if_neg hba]

/-- Settles O27: both primitives on either side of the bound, and for the write in range the memory with the masked value at
its cell as the witness. -/
theorem memoryAccessesAreBoundsChecked : Obligations.MemoryAccessesAreBoundsChecked := by
  refine ⟨fun st addr h => memRead_ok h, fun st addr h => memRead_error h, fun st addr v h => memWrite_error h,
    fun st addr v h => ⟨st.mem.write addr (mask32 v), memWrite_ok h, ?masked, ?others⟩⟩
  case masked => rw [Memory.read_write_same, toNat_mask32]
  case others => exact fun a ha => Memory.read_write_of_ne ha st.mem (mask32 v)

end Sys2Proof.Machine

/-! Requests that match no entry (40_dispatch.md R72, R74, R79): a transaction whose lookup finds nothing is a skip, and
the statement about both kinds of request. -/

namespace Sys2Proof.Machine

/-- A skip leaves everything but the reported outcome as it was. -/
theorem skip_eq (st : State) : skip st = .next { st with outcome := some .noInstruction } := rfl

theorem executeWord_eq_skip {w : Word} {st : State} (h : decodeWith st.params.catalog w = none) :
    executeWord w st = skip st := by
  rw [executeWord, h]

theorem lookupMnemonic_eq_none {cat : List Entry} {m : Text} (h : ∀ e ∈ cat, e.op.mnemonic ≠ m) :
    lookupMnemonic cat m = none :=
  List.find?_eq_none.mpr fun e he heq => h e he (eq_of_beq heq)

theorem parseText_of_lookupMnemonic_eq_none {cat : List Entry} {line : Text}
    (h : lookupMnemonic cat (splitMnemonic line).1 = none) : parseText cat line = .ok none := by
  rw [parseText, h]

theorem executeText_eq_skip {line : Text} {st : State}
    (h : lookupMnemonic st.params.catalog (splitMnemonic line).1 = none) : executeText line st = skip st := by
  rw [executeText, parseText_of_lookupMnemonic_eq_none h]

/-- Settles O33: the lookup of either kind of request finds no entry, so its transaction is a skip. -/
theorem unmatchedRequestIsSkipped : Obligations.UnmatchedRequestIsSkipped := by
  intro st r hunmatched
  have hskip : transact r st = skip st := by
    rcases hunmatched with ⟨w, rfl, hw⟩ | ⟨line, rfl, hline⟩
    · exact executeWord_eq_skip (decodeWith_eq_none hw)
    · exact executeText_eq_skip (lookupMnemonic_eq_none hline)
  exact ⟨_, hskip.trans (skip_eq st), rfl, rfl⟩

end Sys2Proof.Machine

/-! Decoding through the operands (30_encoding.md R53, R55): the instruction that a word decodes to is the one whose row
the word matches and whose operands are the row's fields, with its form for each kind of arithmetic row. -/

namespace Sys2Proof

/-- Rebuilding an instruction from its operation and its operands loses nothing. -/
theorem Instr.build_operands (i : Instr) : i.op.build i.operands = some i := by
  cases i <;> simp [Instr.op, Instr.operands, Op.build]

theorem field5_lt_65536 (lo : Nat) (w : Word) : field5 lo w < 65536 :=
  (field5_lt lo w).trans (by decide)

theorem lt_65536_of_mem_extractR {sig : List Slot} {lo : Nat} {w : Word} {v : Nat} (hv : v ∈ extractR sig lo w) :
    v < 65536 := by
  induction sig generalizing lo with
  | nil => cases hv
  | cons slot sig ih =>
    rcases List.mem_cons.mp hv with rfl | hrest
    · exact field5_lt_65536 lo w
    · exact ih hrest

theorem lt_65536_of_mem_extractI {sig : List Slot} {lo : Nat} {w : Word} {v : Nat} (hv : v ∈ extractI sig lo w) :
    v < 65536 := by
  induction sig generalizing lo with
  | nil => cases hv
  | cons slot sig ih =>
    cases slot <;> rcases List.mem_cons.mp hv with rfl | hrest
    · exact field5_lt_65536 lo w
    · exact ih hrest
    · exact (w.extractLsb' 0 16).isLt
    · exact ih hrest

/-- Every extracted operand value fits a Constant operand. -/
theorem lt_65536_of_mem_extract {e : Entry} {w : Word} {v : Nat} (hv : v ∈ extract e w) : v < 65536 := by
  unfold extract at hv
  split at hv
  · exact lt_65536_of_mem_extractR hv
  · exact lt_65536_of_mem_extractI hv

/-- Building from extracted fields loses none of them, so it gives `i` exactly when the fields are the operands of `i`. -/
theorem build_extract_eq_some_iff (op : Op) (w : Word) (i : Instr) :
    op.build (extract (entry op) w) = some i ↔ i.op = op ∧ extract (entry op) w = i.operands := by
  constructor
  · intro hbuild
    obtain ⟨j, hj, hop, hoperands⟩ := Op.build_eq_some (extract_length (entry op) w)
      fun k v _ hv => lt_65536_of_mem_extract (List.mem_of_getElem? hv)
    obtain rfl : j = i := Option.some.inj (hj.symm.trans hbuild)
    exact ⟨hop, hoperands.symm⟩
  · rintro ⟨rfl, hfields⟩
    rw [hfields, Instr.build_operands]

theorem decode_eq_some_iff_operands (w : Word) (i : Instr) :
    decode w = some i ↔ (entry i.op).accepts w = true ∧ extract (entry i.op) w = i.operands := by
  simp only [decode_eq_some_iff, build_extract_eq_some_iff]
  constructor
  · rintro ⟨op, haccepts, rfl, hfields⟩
    exact ⟨haccepts, hfields⟩
  · exact fun ⟨haccepts, hfields⟩ => ⟨i.op, haccepts, rfl, hfields⟩

/-- The words of a row `op d, s, t` of three registers (30_encoding.md R47). -/
theorem decode_eq_some_iff_of_threeRegisters {i : Instr} {mask pattern : Word} {d s t : Nat}
    (hrow : entry i.op = .rForm i.op [.register, .register, .register] mask pattern) (hoperands : i.operands = [d, s, t])
    (w : Word) :
    decode w = some i ↔ w &&& mask = pattern ∧
      d = (w.extractLsb' 21 5).toNat ∧ s = (w.extractLsb' 16 5).toNat ∧ t = (w.extractLsb' 11 5).toNat := by
  rw [decode_eq_some_iff_operands, hrow, hoperands, Entry.accepts_iff]
  simp [Entry.rForm, extract, extractR, field5, eq_comm]

/-- The words of a row `op t, s, C` of two registers and a 16-bit constant (30_encoding.md R48). -/
theorem decode_eq_some_iff_of_twoRegistersConstant {i : Instr} {mask pattern : Word} {t s : Nat} {C : Const}
    (hrow : entry i.op = .iForm i.op [.register, .register, .constant] mask pattern)
    (hoperands : i.operands = [t, s, C.toNat]) (w : Word) :
    decode w = some i ↔ w &&& mask = pattern ∧
      t = (w.extractLsb' 21 5).toNat ∧ s = (w.extractLsb' 16 5).toNat ∧ C = w.extractLsb' 0 16 := by
  rw [decode_eq_some_iff_operands, hrow, hoperands, Entry.accepts_iff, ← BitVec.toNat_inj (x := C)]
  simp [Entry.iForm, extract, extractI, field5, field16, eq_comm]

end Sys2Proof

/-! Integer arithmetic (41_arithmetic.md): what the shared shapes of an operation do with valid and with invalid register
operands, the value each rule writes in 32-bit arithmetic, and the statements about the instructions. -/

namespace Sys2Proof.Machine

/-! ### Register operands -/

section
variable {i : Instr} {st : State}

theorem faultsWith_of_withRegs2 {a b : Nat} {k : RegIdx → RegIdx → Host.Outcome State Fault Refusal}
    (hexec : exec i st = withRegs2 a b st k) (hinvalid : numRegs ≤ a ∨ numRegs ≤ b) :
    FaultsWith i st .registerIndexFault :=
  hexec.trans (withRegs2_invalid hinvalid st k)

theorem faultsWith_of_withRegs3 {a b c : Nat} {k : RegIdx → RegIdx → RegIdx → Host.Outcome State Fault Refusal}
    (hexec : exec i st = withRegs3 a b c st k) (hinvalid : numRegs ≤ a ∨ numRegs ≤ b ∨ numRegs ≤ c) :
    FaultsWith i st .registerIndexFault :=
  hexec.trans (withRegs3_invalid hinvalid st k)

/-! ### Completion -/

/-- An instruction whose meaning is a register write completes with that write alone; `x` is the value in 32-bit
arithmetic. -/
theorem writesRegister_of_writeBack {d : RegIdx} {v : Int} {x : Word} (hexec : exec i st = writeBack d v st)
    (hvalue : mask32 v = x) : ∃ u, EndsIn i st u (.done none) ∧ WritesRegister st u d x := by
  rw [← hvalue]
  simp only [EndsIn, hexec]
  exact writeBack_spec st d v

theorem writesRegister_of_regRegOp {f : Nat → Nat → Int} {d s t : RegIdx} {x : Word}
    (hexec : exec i st = regRegOp f d s t st) (hvalue : mask32 (f (st.val s) (st.val t)) = x) :
    ∃ u, EndsIn i st u (.done none) ∧ WritesRegister st u d x :=
  writesRegister_of_writeBack (hexec.trans (withRegs3_val d s t st _)) hvalue

theorem writesRegister_of_regConstOp {f : Nat → Nat → Int} {d s : RegIdx} {C : Const} {x : Word}
    (hexec : exec i st = regConstOp f d s C st) (hvalue : mask32 (f (st.val s) C.toNat) = x) :
    ∃ u, EndsIn i st u (.done none) ∧ WritesRegister st u d x :=
  writesRegister_of_writeBack (hexec.trans (withRegs2_val d s st _)) hvalue

end

/-! ### Division -/

theorem State.val_eq_zero_iff (st : State) (i : RegIdx) : st.val i = 0 ↔ st.reg i = 0 :=
  BitVec.toNat_eq (x := st.reg i) (y := 0) |>.symm

/-- A division with valid registers: the check of the divisor, then the write. -/
theorem divisionOp_val (f : Nat → Nat → Int) (d s t : RegIdx) (st : State) :
    divisionOp f d s t st =
      if st.val t = 0 then raise .arithmeticError st else writeBack d (f (st.val s) (st.val t)) st :=
  withRegs3_val d s t st _

theorem divisionOp_of_ne_zero (f : Nat → Nat → Int) (d s : RegIdx) {t : RegIdx} {st : State} (ht : st.reg t ≠ 0) :
    divisionOp f d s t st = writeBack d (f (st.val s) (st.val t)) st := by
  rw [divisionOp_val, if_neg (mt (st.val_eq_zero_iff t).mp ht)]

theorem divisionOp_of_eq_zero (f : Nat → Nat → Int) (d s : RegIdx) {t : RegIdx} {st : State} (ht : st.reg t = 0) :
    divisionOp f d s t st = raise .arithmeticError st := by
  rw [divisionOp_val, if_pos ((st.val_eq_zero_iff t).mpr ht)]

/-! ### Values in 32-bit arithmetic -/

/-- The constant of `addi` is unsigned (30_encoding.md R56). -/
theorem mask32_add_const (a : Word) (C : Const) : mask32 ((a.toNat : Int) + C.toNat) = a + C.setWidth 32 := by
  rw [← toNat_zext, mask32_add]

/-- Masking the exact value of `fma` once at the write is masking at each operation (41_arithmetic.md R92). -/
theorem mask32_add_mul (a b c : Word) : mask32 ((a.toNat : Int) + b.toNat * c.toNat) = a + b * c := by
  have hsum (v : Int) : mask32 (a.toNat + v) = a + mask32 v := by simp [mask32, BitVec.ofInt_add]
  rw [hsum, mask32_mul]

/-! ### The instructions -/

section
variable (st : State)

theorem exec_add (d s t : Nat) : exec (.add d s t) st = regRegOp (fun a b => (a : Int) + b) d s t st := rfl

theorem exec_addi (t s : Nat) (C : Const) :
    exec (.addi t s C) st = regConstOp (fun a c => (a : Int) + c) t s C st := rfl

theorem exec_mult (d s t : Nat) : exec (.mult d s t) st = regRegOp (fun a b => (a : Int) * b) d s t st := rfl

theorem exec_fma (d s t : Nat) : exec (.fma d s t) st =
    withRegs3 d s t st fun d s t => writeBack d ((st.val d : Int) + st.val s * st.val t) st := rfl

theorem exec_mod (d s t : Nat) :
    exec (.mod d s t) st = divisionOp (fun a b => ((a % b : Nat) : Int)) d s t st := rfl

end

/-- Settles O1: `add` is a register-form operation, and masking the exact sum is 32-bit addition. -/
theorem addWritesTheSum : Obligations.AddWritesTheSum := by
  refine ⟨fun st d s t => ?effect, fun st d s t h => ?invalid, fun w d s t => ?encoding⟩
  case effect => exact writesRegister_of_regRegOp (exec_add st d s t) (mask32_add (st.reg s) (st.reg t))
  case invalid => exact faultsWith_of_withRegs3 (exec_add st d s t) h
  case encoding => exact decode_eq_some_iff_of_threeRegisters rfl rfl w

/-- Settles O3: `addi` is an operation with a constant, which the 32-bit addition takes zero-extended. -/
theorem addiAddsTheUnsignedConstant : Obligations.AddiAddsTheUnsignedConstant := by
  refine ⟨fun st t s C => ?effect, fun st t s C h => ?invalid, fun w t s C => ?encoding⟩
  case effect => exact writesRegister_of_regConstOp (exec_addi st t s C) (mask32_add_const (st.reg s) C)
  case invalid => exact faultsWith_of_withRegs2 (exec_addi st t s C) h
  case encoding => exact decode_eq_some_iff_of_twoRegistersConstant rfl rfl w

/-- Settles O4: `mult` is a register-form operation, and masking the exact product is 32-bit multiplication. -/
theorem multWritesTheLowProduct : Obligations.MultWritesTheLowProduct := by
  refine ⟨fun st d s t => ?effect, fun st d s t h => ?invalid, fun w d s t => ?encoding⟩
  case effect => exact writesRegister_of_regRegOp (exec_mult st d s t) (mask32_mul (st.reg s) (st.reg t))
  case invalid => exact faultsWith_of_withRegs3 (exec_mult st d s t) h
  case encoding => exact decode_eq_some_iff_of_threeRegisters rfl rfl w

/-- Settles O5: `fma` reads all three registers in the state before its one write. -/
theorem fmaAccumulatesTheProduct : Obligations.FmaAccumulatesTheProduct := by
  refine ⟨fun st d s t => ?effect, fun st d s t h => ?invalid, fun w d s t => ?encoding⟩
  case effect =>
    exact writesRegister_of_writeBack ((exec_fma st d s t).trans (withRegs3_val d s t st _))
      (mask32_add_mul (st.reg d) (st.reg s) (st.reg t))
  case invalid => exact faultsWith_of_withRegs3 (exec_fma st d s t) h
  case encoding => exact decode_eq_some_iff_of_threeRegisters rfl rfl w

/-- Settles O7: `mod` is a division, so the divisor decides between the write and `ArithmeticError`, whatever `d` is. -/
theorem modWritesTheUnsignedRemainder : Obligations.ModWritesTheUnsignedRemainder := by
  refine ⟨fun st d s t ht => ?effect, fun st d s t ht => ?zeroDivisor, fun st d s t h => ?invalid,
    fun w d s t => ?encoding⟩
  case effect =>
    exact writesRegister_of_writeBack ((exec_mod st d s t).trans (divisionOp_of_ne_zero _ d s ht)) (mask32_natCast _)
  case zeroDivisor => exact (exec_mod st d s t).trans (divisionOp_of_eq_zero _ d s ht)
  case invalid => exact faultsWith_of_withRegs3 (exec_mod st d s t) h
  case encoding => exact decode_eq_some_iff_of_threeRegisters rfl rfl w

end Sys2Proof.Machine

/-! Bitwise logic (42_logic_shift.md): what a row of three registers and a row with a 16-bit constant say of an instruction
whose exact value is, once masked, an operation on words; the value of each bitwise operation; and the statements. -/

namespace Sys2Proof.Machine

/-! ### Rows whose value is an operation on words -/

section
variable {f : Nat → Nat → Int} {g : Word → Word → Word} {mask pattern : Word}

/-- Effect, fault and encoding of an instruction `op d, s, t` that writes `g x[s] x[t]`. -/
theorem threeRegisters_spec {mk : Nat → Nat → Nat → Instr}
    (hexec : ∀ d s t st, exec (mk d s t) st = regRegOp f d s t st)
    (hvalue : ∀ a b : Word, mask32 (f a.toNat b.toNat) = g a b)
    (hrow : ∀ d s t,
      entry (mk d s t).op = .rForm (mk d s t).op [.register, .register, .register] mask pattern)
    (hoperands : ∀ d s t, (mk d s t).operands = [d, s, t]) :
    (∀ (st : State) (d s t : RegIdx),
      ∃ u, EndsIn (mk d s t) st u (.done none) ∧ WritesRegister st u d (g (st.reg s) (st.reg t))) ∧
    (∀ (st : State) (d s t : Nat), numRegs ≤ d ∨ numRegs ≤ s ∨ numRegs ≤ t →
      FaultsWith (mk d s t) st .registerIndexFault) ∧
    (∀ (w : Word) (d s t : Nat), decode w = some (mk d s t) ↔ w &&& mask = pattern ∧
      d = (w.extractLsb' 21 5).toNat ∧ s = (w.extractLsb' 16 5).toNat ∧ t = (w.extractLsb' 11 5).toNat) := by
  refine ⟨fun st d s t => ?effect, fun st d s t h => ?invalid, fun w d s t => ?encoding⟩
  case effect => exact writesRegister_of_regRegOp (hexec d s t st) (hvalue (st.reg s) (st.reg t))
  case invalid => exact faultsWith_of_withRegs3 (hexec d s t st) h
  case encoding => exact decode_eq_some_iff_of_threeRegisters (hrow d s t) (hoperands d s t) w

/-- Effect, fault and encoding of an instruction `op t, s, C` that writes `g x[s] C`, the constant zero-extended
(30_encoding.md R56). -/
theorem twoRegistersConstant_spec {mk : Nat → Nat → Const → Instr}
    (hexec : ∀ t s C st, exec (mk t s C) st = regConstOp f t s C st)
    (hvalue : ∀ a b : Word, mask32 (f a.toNat b.toNat) = g a b)
    (hrow : ∀ t s C,
      entry (mk t s C).op = .iForm (mk t s C).op [.register, .register, .constant] mask pattern)
    (hoperands : ∀ t s C, (mk t s C).operands = [t, s, C.toNat]) :
    (∀ (st : State) (t s : RegIdx) (C : Const),
      ∃ u, EndsIn (mk t s C) st u (.done none) ∧ WritesRegister st u t (g (st.reg s) (C.setWidth 32))) ∧
    (∀ (st : State) (t s : Nat) (C : Const), numRegs ≤ t ∨ numRegs ≤ s →
      FaultsWith (mk t s C) st .registerIndexFault) ∧
    (∀ (w : Word) (t s : Nat) (C : Const), decode w = some (mk t s C) ↔ w &&& mask = pattern ∧
      t = (w.extractLsb' 21 5).toNat ∧ s = (w.extractLsb' 16 5).toNat ∧ C = w.extractLsb' 0 16) := by
  refine ⟨fun st t s C => ?effect, fun st t s C h => ?invalid, fun w t s C => ?encoding⟩
  case effect =>
    have hconst : mask32 (f (st.val s) C.toNat) = g (st.reg s) (C.setWidth 32) := by
      rw [← toNat_zext C]
      exact hvalue (st.reg s) (C.setWidth 32)
    exact writesRegister_of_regConstOp (hexec t s C st) hconst
  case invalid => exact faultsWith_of_withRegs2 (hexec t s C st) h
  case encoding => exact decode_eq_some_iff_of_twoRegistersConstant (hrow t s C) (hoperands t s C) w

end

/-! ### Values: the result is within 32 bits, so the mask never acts -/

/-- Masking the number that a word stands for gives the word back. -/
theorem mask32_of_toNat_eq {x : Word} {n : Nat} (h : x.toNat = n) : mask32 (n : Int) = x := by
  rw [← h, mask32_natCast, BitVec.ofNat_toNat, BitVec.setWidth_eq]

section
variable (a b : Word)

theorem mask32_and : mask32 ((a.toNat &&& b.toNat : Nat) : Int) = a &&& b :=
  mask32_of_toNat_eq (BitVec.toNat_and a b)

theorem mask32_or : mask32 ((a.toNat ||| b.toNat : Nat) : Int) = a ||| b :=
  mask32_of_toNat_eq (BitVec.toNat_or a b)

theorem mask32_xor : mask32 ((a.toNat ^^^ b.toNat : Nat) : Int) = a ^^^ b :=
  mask32_of_toNat_eq (BitVec.toNat_xor a b)

end

/-! ### The instructions -/

theorem exec_and (d s t : Nat) (st : State) :
    exec (.and d s t) st = regRegOp (fun a b => ((a &&& b : Nat) : Int)) d s t st := rfl

theorem exec_or (d s t : Nat) (st : State) :
    exec (.or d s t) st = regRegOp (fun a b => ((a ||| b : Nat) : Int)) d s t st := rfl

theorem exec_xor (d s t : Nat) (st : State) :
    exec (.xor d s t) st = regRegOp (fun a b => ((a ^^^ b : Nat) : Int)) d s t st := rfl

theorem exec_andi (t s : Nat) (C : Const) (st : State) :
    exec (.andi t s C) st = regConstOp (fun a c => ((a &&& c : Nat) : Int)) t s C st := rfl

theorem exec_ori (t s : Nat) (C : Const) (st : State) :
    exec (.ori t s C) st = regConstOp (fun a c => ((a ||| c : Nat) : Int)) t s C st := rfl

/-- Settles O8: `and` is a row of three registers, and the bitwise and of two words needs no masking. -/
theorem andWritesTheBitwiseAnd : Obligations.AndWritesTheBitwiseAnd :=
  threeRegisters_spec exec_and mask32_and (fun _ _ _ => rfl) fun _ _ _ => rfl

/-- Settles O9: `or` is a row of three registers, and the bitwise or of two words needs no masking. -/
theorem orWritesTheBitwiseOr : Obligations.OrWritesTheBitwiseOr :=
  threeRegisters_spec exec_or mask32_or (fun _ _ _ => rfl) fun _ _ _ => rfl

/-- Settles O10: `xor` is a row of three registers, and the exclusive or of two words needs no masking. -/
theorem xorWritesTheBitwiseXor : Obligations.XorWritesTheBitwiseXor :=
  threeRegisters_spec exec_xor mask32_xor (fun _ _ _ => rfl) fun _ _ _ => rfl

/-- Settles O11: `andi` is a row with a constant, and its value is that of `and` on the zero-extended constant. -/
theorem andiMasksWithTheConstant : Obligations.AndiMasksWithTheConstant :=
  twoRegistersConstant_spec exec_andi mask32_and (fun _ _ _ => rfl) fun _ _ _ => rfl

/-- Settles O12: `ori` is a row with a constant, and its value is that of `or` on the zero-extended constant. -/
theorem oriSetsTheBitsOfTheConstant : Obligations.OriSetsTheBitsOfTheConstant :=
  twoRegistersConstant_spec exec_ori mask32_or (fun _ _ _ => rfl) fun _ _ _ => rfl

end Sys2Proof.Machine

/-! Decoding of the rows of the data movement instructions (30_encoding.md R48): the rows with one register and a constant,
and with the constant between two registers. -/

namespace Sys2Proof

/-- The words of a row `op rd, C` of one register and a 16-bit constant (30_encoding.md R48). -/
theorem decode_eq_some_iff_of_oneRegisterConstant {i : Instr} {mask pattern : Word} {rd : Nat} {C : Const}
    (hrow : entry i.op = .iForm i.op [.register, .constant] mask pattern) (hoperands : i.operands = [rd, C.toNat])
    (w : Word) :
    decode w = some i ↔ w &&& mask = pattern ∧ rd = (w.extractLsb' 21 5).toNat ∧ C = w.extractLsb' 0 16 := by
  rw [decode_eq_some_iff_operands, hrow, hoperands, Entry.accepts_iff, ← BitVec.toNat_inj (x := C)]
  simp [Entry.iForm, extract, extractI, field5, field16, eq_comm]

/-- The words of a row `op t, C, s`: the constant slot takes no 5-bit field, so the second register is in bits 20:16
(30_encoding.md R48). -/
theorem decode_eq_some_iff_of_registerConstantRegister {i : Instr} {mask pattern : Word} {t s : Nat} {C : Const}
    (hrow : entry i.op = .iForm i.op [.register, .constant, .register] mask pattern)
    (hoperands : i.operands = [t, C.toNat, s]) (w : Word) :
    decode w = some i ↔ w &&& mask = pattern ∧
      t = (w.extractLsb' 21 5).toNat ∧ s = (w.extractLsb' 16 5).toNat ∧ C = w.extractLsb' 0 16 := by
  rw [decode_eq_some_iff_operands, hrow, hoperands, Entry.accepts_iff, ← BitVec.toNat_inj (x := C),
    and_comm (a := s = (w.extractLsb' 16 5).toNat)]
  simp [Entry.iForm, extract, extractI, field5, field16, eq_comm]

end Sys2Proof

/-! Data movement (43_data_movement.md): what `li`, `lw` and `sw` do with valid registers, on either side of the memory
bound, and the statements about them. -/

namespace Sys2Proof.Machine

theorem faultsWith_of_withReg {i : Instr} {st : State} {a : Nat} {k : RegIdx → Host.Outcome State Fault Refusal}
    (hexec : exec i st = withReg a st k) (hinvalid : numRegs ≤ a) : FaultsWith i st .registerIndexFault :=
  hexec.trans (withReg_invalid hinvalid st k)

/-- Masking the value of a word changes nothing. -/
theorem mask32_toNat (x : Word) : mask32 (x.toNat : Int) = x := mask32_of_toNat_eq rfl

/-! ### The instructions -/

theorem exec_li (rd : Nat) (C : Const) (st : State) :
    exec (.li rd C) st = withReg rd st fun rd => writeBack rd C.toNat st := rfl

theorem exec_lw (t : Nat) (C : Const) (s : Nat) (st : State) : exec (.lw t C s) st = execLw t C s st := rfl

theorem exec_sw (t : Nat) (C : Const) (s : Nat) (st : State) : exec (.sw t C s) st =
    withRegs2 t s st fun t s => finish st (memWrite (effAddr s C st) (st.val t) st) := rfl

section
variable {st : State} {C : Const} {s : RegIdx} (t : RegIdx)

theorem exec_lw_of_lt (h : effAddr s C st < st.params.memCells) :
    exec (.lw t C s) st = writeBack t (st.mem.read (effAddr s C st)).toNat st := by
  rw [exec_lw, execLw, withRegs2_val, memRead_ok h]

theorem exec_lw_of_le (h : st.params.memCells ≤ effAddr s C st) :
    exec (.lw t C s) st = raise (.boundsError (effAddr s C st)) st := by
  rw [exec_lw, execLw, withRegs2_val, memRead_error h]

theorem exec_sw_of_lt (h : effAddr s C st < st.params.memCells) :
    exec (.sw t C s) st = complete none { st with mem := st.mem.write (effAddr s C st) (st.reg t) } := by
  rw [exec_sw, withRegs2_val, memWrite_ok h, State.val, mask32_toNat, finish]

theorem exec_sw_of_le (h : st.params.memCells ≤ effAddr s C st) :
    exec (.sw t C s) st = raise (.boundsError (effAddr s C st)) st := by
  rw [exec_sw, withRegs2_val, memWrite_error h, finish]

end

/-- Settles O15: `li` is one register write, and the constant is the value of its zero-extension. -/
theorem liLoadsTheConstant : Obligations.LiLoadsTheConstant := by
  refine ⟨fun st rd C => ?effect, fun st rd C h => ?invalid, fun w rd C => ?encoding⟩
  case effect =>
    exact writesRegister_of_writeBack ((exec_li rd C st).trans (withReg_val rd st _)) (mask32_of_toNat_eq (toNat_zext C))
  case invalid => exact faultsWith_of_withReg (exec_li rd C st) h
  case encoding => exact decode_eq_some_iff_of_oneRegisterConstant rfl rfl w

/-- Settles O16: below the bound `lw` is a register write of the cell read, from the bound on it is a fault. -/
theorem lwLoadsTheCell : Obligations.LwLoadsTheCell := by
  refine ⟨fun st C s => rfl, fun st t C s h => ?effect, fun st t C s h => ?bounds, fun st t C s h => ?invalid,
    fun w t C s => ?encoding⟩
  case effect => exact writesRegister_of_writeBack (exec_lw_of_lt t h) (mask32_toNat _)
  case bounds => exact exec_lw_of_le t h
  case invalid => exact faultsWith_of_withRegs2 (exec_lw t C s st) h
  case encoding => exact decode_eq_some_iff_of_registerConstantRegister rfl rfl w

/-- Settles O17: below the bound `sw` completes in the state with one cell written, from the bound on it is a fault. -/
theorem swStoresTheRegister : Obligations.SwStoresTheRegister := by
  refine ⟨fun st C s => rfl, fun st t C s h => ⟨_, ⟨exec_sw_of_lt t h, rfl⟩, ?cells, ?registers, rfl, rfl, rfl, rfl⟩,
    fun st t C s h => ?bounds, fun st t C s h => ?invalid, fun w t C s => ?encoding⟩
  case cells => exact fun a => Memory.read_write st.mem (effAddr s C st) a (st.reg t)
  case registers => exact State.reg_congr rfl
  case bounds => exact exec_sw_of_le t h
  case invalid => exact faultsWith_of_withRegs2 (exec_sw t C s st) h
  case encoding => exact decode_eq_some_iff_of_registerConstantRegister rfl rfl w

end Sys2Proof.Machine

/-! Decoding of the rows of the stack instructions (30_encoding.md R47, R48): the rows with one register, and with a
constant alone. -/

namespace Sys2Proof

/-- The words of a register-form row `op r` of one register (30_encoding.md R47). -/
theorem decode_eq_some_iff_of_oneRegister {i : Instr} {mask pattern : Word} {r : Nat}
    (hrow : entry i.op = .rForm i.op [.register] mask pattern) (hoperands : i.operands = [r]) (w : Word) :
    decode w = some i ↔ w &&& mask = pattern ∧ r = (w.extractLsb' 21 5).toNat := by
  rw [decode_eq_some_iff_operands, hrow, hoperands, Entry.accepts_iff]
  simp [Entry.rForm, extract, extractR, field5, eq_comm]

/-- The words of a row `op C` of a 16-bit constant alone (30_encoding.md R48). -/
theorem decode_eq_some_iff_of_constant {i : Instr} {mask pattern : Word} {C : Const}
    (hrow : entry i.op = .iForm i.op [.constant] mask pattern) (hoperands : i.operands = [C.toNat]) (w : Word) :
    decode w = some i ↔ w &&& mask = pattern ∧ C = w.extractLsb' 0 16 := by
  rw [decode_eq_some_iff_operands, hrow, hoperands, Entry.accepts_iff, ← BitVec.toNat_inj (x := C)]
  simp [Entry.iForm, extract, extractI, field16, eq_comm]

end Sys2Proof

/-! Pushes (10_state.md R20, 44_stack.md R122, R124): what a push does below and at the depth of the stack, what an
instruction whose meaning is one push does, and the statements about the two of them. -/

namespace Sys2Proof.Machine

/-- A stack below every finite depth is not full. -/
theorem stackFull_eq_false {st : State} (hroom : ∀ n, st.params.stackDepth = some n → st.stack.length < n) :
    st.stackFull = false := by
  rw [← Bool.not_eq_true, stackFull_iff]
  rintro ⟨n, hdepth, hfull⟩
  exact (hroom n hdepth).not_ge hfull

theorem push_of_not_full {st : State} (hroom : st.stackFull = false) (v : Nat) :
    push v st = .ok { st with stack := v :: st.stack } := by
  simp [push, hroom]

theorem push_of_full {st : State} (hfull : st.stackFull = true) (v : Nat) : push v st = .error .stackOverflow := by
  simp [push, hfull]

/-! ### Instructions whose meaning is one push -/

section
variable {i : Instr} {st : State} {v : Nat}

/-- Below the depth the instruction completes with the push alone. -/
theorem endsIn_of_push (hexec : exec i st = finish st (push v st))
    (hroom : ∀ n, st.params.stackDepth = some n → st.stack.length < n) :
    ∃ u, EndsIn i st u (.done none) ∧ u.stack = v :: st.stack ∧
      SameRegisters st u ∧ SameMemory st u ∧ u.pc = st.pc ∧ SameSurroundings st u := by
  rw [push_of_not_full (stackFull_eq_false hroom)] at hexec
  exact ⟨_, ⟨hexec, rfl⟩, rfl, State.reg_congr rfl, fun _ => rfl, rfl, rfl, rfl⟩

/-- At a finite depth the instruction takes the fault. -/
theorem faultsWith_of_push (hexec : exec i st = finish st (push v st)) {n : Nat}
    (hdepth : st.params.stackDepth = some n) (hfull : n ≤ st.stack.length) : FaultsWith i st .stackOverflow := by
  rw [push_of_full ((stackFull_iff st).mpr ⟨n, hdepth, hfull⟩)] at hexec
  exact hexec

end

/-! ### The instructions -/

theorem exec_stpush (r : Nat) (st : State) :
    exec (.stpush r) st = withReg r st fun r => finish st (push (st.val r) st) := rfl

/-- With a valid register `stpush` is the push of its value. -/
theorem exec_stpush_val (r : RegIdx) (st : State) : exec (.stpush r) st = finish st (push (st.val r) st) :=
  (exec_stpush r st).trans (withReg_val r st _)

theorem exec_stpushi (C : Const) (st : State) : exec (.stpushi C) st = finish st (push C.toNat st) := rfl

/-- Settles O18: with a valid register `stpush` is one push, so the depth decides between the new top and the fault. -/
theorem stpushPushesTheRegister : Obligations.StpushPushesTheRegister := by
  refine ⟨fun st r hroom => ?effect, fun st r n hdepth hfull => ?overflow, fun st r h => ?invalid, fun w r => ?encoding⟩
  case effect => exact endsIn_of_push (exec_stpush_val r st) hroom
  case overflow => exact faultsWith_of_push (exec_stpush_val r st) hdepth hfull
  case invalid => exact faultsWith_of_withReg (exec_stpush r st) h
  case encoding => exact decode_eq_some_iff_of_oneRegister rfl rfl w

/-- Settles O20: `stpushi` is one push of the constant's value, so the depth decides between the new top and the fault. -/
theorem stpushiPushesTheConstant : Obligations.StpushiPushesTheConstant := by
  refine ⟨fun st C hroom => ?effect, fun st C n hdepth hfull => ?overflow, fun w C => ?encoding⟩
  case effect => exact endsIn_of_push (exec_stpushi C st) hroom
  case overflow => exact faultsWith_of_push (exec_stpushi C st) hdepth hfull
  case encoding => exact decode_eq_some_iff_of_constant rfl rfl w

end Sys2Proof.Machine

/-! Jumps (45_control.md R131): what an instruction that only sets the pc does, and the statement about `jr`. -/

namespace Sys2Proof.Machine

/-- An instruction that completes with a new pc leaves everything else as it was. -/
theorem endsIn_of_jump {i : Instr} {st : State} {target : Nat}
    (hexec : exec i st = complete none { st with pc := target }) :
    ∃ u, EndsIn i st u (.done none) ∧ u.pc = target ∧
      SameRegisters st u ∧ SameMemory st u ∧ u.stack = st.stack ∧ SameSurroundings st u :=
  ⟨_, ⟨hexec, rfl⟩, rfl, State.reg_congr rfl, fun _ => rfl, rfl, rfl, rfl⟩

theorem exec_jr (r : Nat) (st : State) :
    exec (.jr r) st = withReg r st fun r => complete none { st with pc := st.val r } := rfl

/-- With a valid register `jr` is a jump to its value. -/
theorem exec_jr_val (r : RegIdx) (st : State) : exec (.jr r) st = complete none { st with pc := (st.reg r).toNat } :=
  (exec_jr r st).trans (withReg_val r st _)

/-- Settles O22: with a valid register `jr` is one jump, to the register's value. -/
theorem jrJumpsToTheRegister : Obligations.JrJumpsToTheRegister := by
  refine ⟨fun st r => ?effect, fun st r h => ?invalid, fun w r => ?encoding⟩
  case effect => exact endsIn_of_jump (exec_jr_val r st)
  case invalid => exact faultsWith_of_withReg (exec_jr r st) h
  case encoding => exact decode_eq_some_iff_of_oneRegister rfl rfl w

end Sys2Proof.Machine

/-! Peek instructions (46_peek.md R138, R139): what an instruction that only returns a value to the host does, `pkr` with a
valid register, `pkm` on either side of the memory bound, and the statements about the two of them. -/

namespace Sys2Proof.Machine

/-- An instruction that completes in the state before it, with a value for the host, changes the reported outcome alone. -/
theorem endsIn_of_peek {i : Instr} {st : State} {v : Word} (hexec : exec i st = complete (some v) st) :
    ∃ u, EndsIn i st u (.done (some v)) ∧ OnlyReports st u :=
  ⟨_, ⟨hexec, rfl⟩, rfl⟩

theorem exec_pkr (r : Nat) (st : State) :
    exec (.pkr r) st = withReg r st fun r => complete (some (st.reg r)) st := rfl

/-- With a valid register `pkr` completes with the register for the host. -/
theorem exec_pkr_val (r : RegIdx) (st : State) : exec (.pkr r) st = complete (some (st.reg r)) st :=
  (exec_pkr r st).trans (withReg_val r st _)

theorem exec_pkm (C : Const) (st : State) : exec (.pkm C) st = execPkm C st := rfl

section
variable {st : State} {C : Const}

theorem exec_pkm_of_lt (h : C.toNat < st.params.memCells) :
    exec (.pkm C) st = complete (some (st.mem.read C.toNat)) st := by
  rw [exec_pkm, execPkm, memRead_ok h]

theorem exec_pkm_of_le (h : st.params.memCells ≤ C.toNat) : exec (.pkm C) st = raise (.boundsError C.toNat) st := by
  rw [exec_pkm, execPkm, memRead_error h]

end

/-- Settles O24: with a valid register `pkr` is one peek, of the register's value. -/
theorem pkrReturnsTheRegister : Obligations.PkrReturnsTheRegister := by
  refine ⟨fun st r => ?effect, fun st r h => ?invalid, fun w r => ?encoding⟩
  case effect => exact endsIn_of_peek (exec_pkr_val r st)
  case invalid => exact faultsWith_of_withReg (exec_pkr r st) h
  case encoding => exact decode_eq_some_iff_of_oneRegister rfl rfl w

/-- Settles O25: below the bound `pkm` is one peek, of the cell read, from the bound on it is a fault. -/
theorem pkmReturnsTheCell : Obligations.PkmReturnsTheCell := by
  refine ⟨fun st C h => ?effect, fun st C h => ?bounds, fun w C => ?encoding⟩
  case effect => exact endsIn_of_peek (exec_pkm_of_lt h)
  case bounds => exact exec_pkm_of_le h
  case encoding => exact decode_eq_some_iff_of_constant rfl rfl w

end Sys2Proof.Machine

/-! Stack underflow (60_exceptions.md R153): a pop of an empty stack, `stpop` with a valid register there, and the statement
about it. -/

namespace Sys2Proof.Machine

theorem pop_of_stack_eq_nil {st : State} (hempty : st.stack = []) : pop st = .error .stackUnderflow := by
  simp [pop, hempty]

theorem exec_stpop (rd : Nat) (st : State) : exec (.stpop rd) st = execStpop rd st := rfl

theorem exec_stpop_of_stack_eq_nil (rd : RegIdx) {st : State} (hempty : st.stack = []) :
    exec (.stpop rd) st = raise .stackUnderflow st := by
  rw [exec_stpop, execStpop, withReg_val, pop_of_stack_eq_nil hempty]

theorem State.construct_stack (p : Params) (regs : Vector Word 29) (m : Memory) (pc : Nat) :
    (State.construct p regs m pc).stack = [] := rfl

/-- Settles O29: the pop of an empty stack is the fault, and a new core's stack is empty. -/
theorem popOnAFreshCoreUnderflows : Obligations.PopOnAFreshCoreUnderflows := by
  refine ⟨fun st rd hempty => ?emptyStack, fun p regs m pc rd => ?newCore⟩
  case emptyStack => exact exec_stpop_of_stack_eq_nil rd hempty
  case newCore => exact exec_stpop_of_stack_eq_nil rd (State.construct_stack p regs m pc)

end Sys2Proof.Machine

/-! Transactions (40_dispatch.md R70 to R79): the ends of a transaction of either kind of request, and of a step. -/

namespace Sys2Proof.Machine

/-- A transaction is a skip, a fault, or the meaning of one instruction. -/
theorem transact_cases (r : Request) (st : State) :
    transact r st = skip st ∨ (∃ f, transact r st = raise f st) ∨ ∃ i, transact r st = exec i st := by
  cases r with
  | word w =>
    rw [transact, executeWord]
    split
    · next i _ => exact .inr (.inr ⟨i, rfl⟩)
    · exact .inl rfl
  | text line =>
    rw [transact, executeText]
    split
    · next f _ => exact .inr (.inl ⟨f, rfl⟩)
    · exact .inl rfl
    · next i _ => exact .inr (.inr ⟨i, rfl⟩)

/-- A transaction changes the reported outcome alone, to `NoInstruction` or a fault, or completes with the effect of an
instruction. -/
theorem transact_next {r : Request} {st u : State} (h : transact r st = .next u) :
    OnlyReports st u ∨ ∃ i u' ret, u = { u' with outcome := some (.done ret) } ∧ Effect i st u' ret := by
  rcases transact_cases r st with e | ⟨f, e⟩ | ⟨i, e⟩
  · rw [e, skip_eq] at h
    obtain rfl := Host.Outcome.next.inj h
    exact .inl rfl
  · rw [e, raise_eq] at h
    obtain rfl := Host.Outcome.next.inj h
    exact .inl rfl
  · rcases exec_next (e.symm.trans h) with ⟨f, rfl, _⟩ | ⟨u', ret, hu, heffect⟩
    · exact .inl rfl
    · exact .inr ⟨i, u', ret, hu, heffect⟩

theorem step_of_requests_eq_nil {st : State} (h : st.requests = []) : step st = .next st := by
  rw [step, serve, h]

/-- A step with a request is its transaction, at the state without the request. -/
theorem step_of_requests_eq_cons {st : State} {r : Request} {rest : List Request} (h : st.requests = r :: rest) :
    step st = transact r { st with requests := rest } := by
  rw [step, serve, h]

end Sys2Proof.Machine

/-! The invariant (10_state.md R26): what it depends on, that the effect of every instruction keeps it, and the statement
that every step does. -/

namespace Sys2Proof.Machine

namespace State.Inv

/-- The invariant speaks of the parameters, the memory and the stack alone. -/
theorem congr {st u : State} (h : st.Inv) (hparams : u.params = st.params) (hmem : u.mem = st.mem)
    (hstack : u.stack = st.stack) : u.Inv := by
  constructor
  · rw [hparams]; exact h.params
  · rw [hmem]; exact h.memCanonical
  · rw [hparams, hmem]; exact h.memInRange
  · rw [hparams, hstack]; exact h.stackInDepth
  · rw [hstack]; exact h.stackInWidth

variable {st : State} (h : st.Inv)
include h

theorem setReg (d : RegIdx) (v : Int) : (st.setReg d v).Inv :=
  h.congr (by simp) (by simp) (by simp)

/-- A write inside the memory keeps its canonical form and lists no cell that does not exist. -/
theorem store {a : Nat} (ha : a < st.params.memCells) (v : Word) : State.Inv { st with mem := st.mem.write a v } where
  params := h.params
  memCanonical := Memory.write_wf h.memCanonical a v
  memInRange c hc := (Memory.mem_write hc).elim (fun hca => hca ▸ ha) (h.memInRange c)
  stackInDepth := h.stackInDepth
  stackInWidth := h.stackInWidth

/-- A push on a stack that is not full stays within the depth. -/
theorem push {v : Nat} (hroom : st.stackFull = false) (hv : v < 2 ^ 32) : State.Inv { st with stack := v :: st.stack } where
  params := h.params
  memCanonical := h.memCanonical
  memInRange := h.memInRange
  stackInDepth n hdepth := by
    by_contra hfull
    have := (stackFull_iff st).mpr ⟨n, hdepth, Nat.le_of_lt_succ (not_le.mp hfull)⟩
    rw [hroom] at this
    cases this
  stackInWidth := List.forall_mem_cons.mpr ⟨hv, h.stackInWidth⟩

theorem pop {v : Nat} {rest : List Nat} (htop : st.stack = v :: rest) : State.Inv { st with stack := rest } where
  params := h.params
  memCanonical := h.memCanonical
  memInRange := h.memInRange
  stackInDepth n hdepth := by
    have := h.stackInDepth n hdepth
    rw [htop] at this
    exact (Nat.le_succ _).trans this
  stackInWidth w hw := h.stackInWidth w (htop ▸ List.mem_cons_of_mem v hw)

end State.Inv

/-- The effect of every instruction keeps the invariant. -/
theorem Effect.inv {i : Instr} {st u : State} {ret : Option Word} (heffect : Effect i st u ret) (h : st.Inv) : u.Inv := by
  cases heffect with
  | write d v _ => exact h.setReg d v
  | store t s C _ hinside => exact h.store hinside (st.reg t)
  | push v _ hv hroom => exact h.push hroom hv
  | pop rd v rest _ htop => exact (h.pop htop).setReg rd v
  | link C _ => exact (h.setReg ra (st.pc + 1)).congr rfl rfl rfl
  | jump pc _ => exact h.congr rfl rfl rfl
  | peekRegister r _ => exact h
  | peekCell C _ _ => exact h

/-- Every transaction keeps the invariant. -/
theorem transact_inv {r : Request} {st u : State} (h : st.Inv) (hnext : transact r st = .next u) : u.Inv := by
  rcases transact_next hnext with hreports | ⟨i, u', ret, rfl, heffect⟩
  · rw [hreports]; exact h.congr rfl rfl rfl
  · exact (heffect.inv h).congr rfl rfl rfl

/-- Settles O31: an idle step answers the same state, and the transaction of any other step keeps the invariant. -/
theorem everyStepKeepsTheInvariant : Obligations.EveryStepKeepsTheInvariant := by
  intro st u h hstep
  cases hrequests : st.requests with
  | nil =>
    rw [step_of_requests_eq_nil hrequests] at hstep
    exact Host.Outcome.next.inj hstep ▸ h
  | cons r rest =>
    rw [step_of_requests_eq_cons hrequests] at hstep
    exact transact_inv (h.congr (u := { st with requests := rest }) rfl rfl rfl) hstep

/-- Settles O30: the stack of a new core is empty, and the other clauses are the hypotheses on its parameters and memory. -/
theorem invariantHoldsAtConstruction : Obligations.InvariantHoldsAtConstruction := by
  have hconstruct (p : Params) (regs : Vector Word 29) (m : Memory) (pc : Nat) (hp : p.wf) (hm : m.wf)
      (hrange : ∀ c ∈ m, c.1 < p.memCells) : (State.construct p regs m pc).Inv :=
    ⟨hp, hm, hrange, fun n _ => Nat.zero_le n, fun v hv => nomatch hv⟩
  exact ⟨hconstruct, hconstruct _ _ _ _ params_default_wf ⟨.nil, fun c hc => nomatch hc⟩ fun c hc => nomatch hc⟩

end Sys2Proof.Machine

/-! Subtraction and division (41_arithmetic.md R86, R90), on the rules of the arithmetic instructions above. -/

namespace Sys2Proof.Machine

theorem exec_sub (d s t : Nat) (st : State) : exec (.sub d s t) st = regRegOp (fun a b => (a : Int) - b) d s t st := rfl

theorem exec_div (d s t : Nat) (st : State) :
    exec (.div d s t) st = divisionOp (fun a b => ((a / b : Nat) : Int)) d s t st := rfl

/-- Settles O2: `sub` is a row of three registers, and masking the exact difference is 32-bit subtraction. -/
theorem subWritesTheDifference : Obligations.SubWritesTheDifference :=
  threeRegisters_spec exec_sub mask32_sub (fun _ _ _ => rfl) fun _ _ _ => rfl

/-- Settles O6: `div` is a division, so the divisor decides between the write and `ArithmeticError`, whatever `d` is. -/
theorem divWritesTheUnsignedQuotient : Obligations.DivWritesTheUnsignedQuotient := by
  refine ⟨fun st d s t ht => ?effect, fun st d s t ht => ?zeroDivisor, fun st d s t h => ?invalid,
    fun w d s t => ?encoding⟩
  case effect =>
    exact writesRegister_of_writeBack ((exec_div d s t st).trans (divisionOp_of_ne_zero _ d s ht)) (mask32_natCast _)
  case zeroDivisor => exact (exec_div d s t st).trans (divisionOp_of_eq_zero _ d s ht)
  case invalid => exact faultsWith_of_withRegs3 (exec_div d s t st) h
  case encoding => exact decode_eq_some_iff_of_threeRegisters rfl rfl w

end Sys2Proof.Machine

/-! Shifts (42_logic_shift.md R105 to R107): the rows with a shift amount in a 5-bit field, the value of either shift for
every amount, and the statements. -/

namespace Sys2Proof

/-- The words of a row `op d, t, C` of two registers and a 5-bit shift amount (30_encoding.md R47). -/
theorem decode_eq_some_iff_of_shift {i : Instr} {mask pattern : Word} {d t : Nat} {C : Const}
    (hrow : entry i.op = .rForm i.op [.register, .register, .constant] mask pattern)
    (hoperands : i.operands = [d, t, C.toNat]) (w : Word) :
    decode w = some i ↔ w &&& mask = pattern ∧
      d = (w.extractLsb' 21 5).toNat ∧ t = (w.extractLsb' 16 5).toNat ∧ C.toNat = (w.extractLsb' 11 5).toNat := by
  rw [decode_eq_some_iff_operands, hrow, hoperands, Entry.accepts_iff]
  simp [Entry.rForm, extract, extractR, field5, eq_comm]

end Sys2Proof

namespace Sys2Proof.Machine

/-- Shifting left by the whole amount is multiplying by its power of two, before the mask. -/
theorem mask32_shiftLeft (a n : Nat) : mask32 ((a <<< n : Nat) : Int) = BitVec.ofNat 32 (a * 2 ^ n) := by
  rw [mask32_natCast, Nat.shiftLeft_eq]

/-- Shifting right by the whole amount is dividing by its power of two, rounded down. -/
theorem mask32_shiftRight (a n : Nat) : mask32 ((a >>> n : Nat) : Int) = BitVec.ofNat 32 (a / 2 ^ n) := by
  rw [mask32_natCast, Nat.shiftRight_eq_div_pow]

theorem exec_sll (d t : Nat) (C : Const) (st : State) :
    exec (.sll d t C) st = regConstOp (fun a c => ((a <<< c : Nat) : Int)) d t C st := rfl

theorem exec_srl (d t : Nat) (C : Const) (st : State) :
    exec (.srl d t C) st = regConstOp (fun a c => ((a >>> c : Nat) : Int)) d t C st := rfl

/-- Effect, fault and encoding of a shift `op d, t, C` that writes the low 32 bits of `g x[t] C`. -/
theorem shift_spec {mk : Nat → Nat → Const → Instr} {f : Nat → Nat → Int} {g : Nat → Nat → Nat} {mask pattern : Word}
    (hexec : ∀ d t C st, exec (mk d t C) st = regConstOp f d t C st)
    (hvalue : ∀ a n : Nat, mask32 (f a n) = BitVec.ofNat 32 (g a n))
    (hrow : ∀ d t C,
      entry (mk d t C).op = .rForm (mk d t C).op [.register, .register, .constant] mask pattern)
    (hoperands : ∀ d t C, (mk d t C).operands = [d, t, C.toNat]) :
    (∀ (st : State) (d t : RegIdx) (C : Const), ∃ u, EndsIn (mk d t C) st u (.done none) ∧
      WritesRegister st u d (BitVec.ofNat 32 (g (st.reg t).toNat C.toNat))) ∧
    (∀ (st : State) (d t : Nat) (C : Const), numRegs ≤ d ∨ numRegs ≤ t →
      FaultsWith (mk d t C) st .registerIndexFault) ∧
    (∀ (w : Word) (d t : Nat) (C : Const), decode w = some (mk d t C) ↔ w &&& mask = pattern ∧
      d = (w.extractLsb' 21 5).toNat ∧ t = (w.extractLsb' 16 5).toNat ∧ C.toNat = (w.extractLsb' 11 5).toNat) := by
  refine ⟨fun st d t C => ?effect, fun st d t C h => ?invalid, fun w d t C => ?encoding⟩
  case effect => exact writesRegister_of_regConstOp (hexec d t C st) (hvalue (st.val t) C.toNat)
  case invalid => exact faultsWith_of_withRegs2 (hexec d t C st) h
  case encoding => exact decode_eq_some_iff_of_shift (hrow d t C) (hoperands d t C) w

/-- Settles O13: `sll` is a shift by all 16 bits of the constant, and shifting left multiplies by a power of two. -/
theorem sllShiftsLeftByTheWholeConstant : Obligations.SllShiftsLeftByTheWholeConstant :=
  shift_spec exec_sll mask32_shiftLeft (fun _ _ _ => rfl) fun _ _ _ => rfl

/-- Settles O14: `srl` is a shift by all 16 bits of the constant, and shifting right divides by a power of two. -/
theorem srlShiftsRightByTheWholeConstant : Obligations.SrlShiftsRightByTheWholeConstant :=
  shift_spec exec_srl mask32_shiftRight (fun _ _ _ => rfl) fun _ _ _ => rfl

end Sys2Proof.Machine

/-! Pops (10_state.md R21, 44_stack.md R123): `stpop` on a stack with an entry, the statement about it, and a pop after a
push (R125). -/

namespace Sys2Proof.Machine

theorem pop_of_stack_eq_cons {st : State} {v : Nat} {rest : List Nat} (htop : st.stack = v :: rest) :
    pop st = .ok (v, { st with stack := rest }) := by
  simp [pop, htop]

/-- With a valid register and an entry on the stack, `stpop` is a write of the entry, at the state without it. -/
theorem exec_stpop_of_stack_eq_cons (rd : RegIdx) {st : State} {v : Nat} {rest : List Nat} (htop : st.stack = v :: rest) :
    exec (.stpop rd) st = writeBack rd v { st with stack := rest } := by
  rw [exec_stpop, execStpop, withReg_val, pop_of_stack_eq_cons htop]

/-- With an entry on the stack `stpop` completes: compared with the state without the entry, it is one register write. -/
theorem endsIn_stpop (rd : RegIdx) {st : State} {v : Nat} {rest : List Nat} (htop : st.stack = v :: rest) :
    ∃ u, EndsIn (.stpop rd) st u (.done none) ∧ WritesRegister { st with stack := rest } u rd (BitVec.ofNat 32 v) := by
  rw [← mask32_natCast]
  simp only [EndsIn, exec_stpop_of_stack_eq_cons rd htop]
  exact writeBack_spec { st with stack := rest } rd v

/-- Settles O19: the stack decides between the register write at the state without the entry and `StackUnderflow`. -/
theorem stpopPopsIntoTheRegister : Obligations.StpopPopsIntoTheRegister := by
  refine ⟨fun st rd v rest htop => ?effect, fun st rd hempty => ?underflow, fun st rd h => ?invalid, fun w rd => ?encoding⟩
  case effect =>
    obtain ⟨u, hends, hreg, hmem, hstack, hpc, hsurroundings⟩ := endsIn_stpop rd htop
    exact ⟨u, hends, hstack, hreg, hmem, hpc, hsurroundings⟩
  case underflow => exact exec_stpop_of_stack_eq_nil rd hempty
  case invalid => exact faultsWith_of_withReg (exec_stpop rd st) h
  case encoding => exact decode_eq_some_iff_of_oneRegister rfl rfl w

/-- A push that completes puts its value on the stack and changes nothing else but the reported outcome. -/
theorem eq_of_push_done {i : Instr} {st u : State} {v : Nat} (hexec : exec i st = finish st (push v st))
    (hnext : exec i st = .next u) (hdone : u.outcome = some (.done none)) :
    u = { st with stack := v :: st.stack, outcome := some (.done none) } := by
  rw [hexec] at hnext
  rcases push_cases v st with ⟨_, e⟩ | ⟨_, e⟩ <;> rw [e] at hnext <;> obtain rfl := Host.Outcome.next.inj hnext
  · cases hdone
  · rfl

/-- A pop after a completed push: compared with the state before the push, one register write of the pushed value. -/
theorem stpop_after_push {i : Instr} {st u : State} {v : Nat} (rd : RegIdx) {x : Word}
    (hexec : exec i st = finish st (push v st)) (hnext : exec i st = .next u) (hdone : u.outcome = some (.done none))
    (hvalue : BitVec.ofNat 32 v = x) : ∃ t, EndsIn (.stpop rd) u t (.done none) ∧ WritesRegister st t rd x := by
  rw [eq_of_push_done hexec hnext hdone, ← hvalue]
  exact endsIn_stpop rd rfl

/-- Settles O50: both pushes are one push, and the pushed value is the number of a word. -/
theorem pushThenPopMovesTheValue : Obligations.PushThenPopMovesTheValue := by
  refine ⟨fun st u r rd hnext hdone => ?register, fun st u C rd hnext hdone => ?constant⟩
  case register =>
    exact stpop_after_push rd (exec_stpush_val r st) hnext hdone (by rw [State.val, BitVec.ofNat_toNat, BitVec.setWidth_eq])
  case constant => exact stpop_after_push rd (exec_stpushi C st) hnext hdone (BitVec.ofNat_toNat 32 C)

end Sys2Proof.Machine

/-! Relative and linking jumps (45_control.md R130, R132), and the statements about `jal` and `j`. -/

namespace Sys2Proof.Machine

theorem exec_jal (C : Const) (st : State) :
    exec (.jal C) st = complete none { st.setReg ra ((st.pc : Int) + 1) with pc := C.toNat } := rfl

theorem exec_j (C : Const) (st : State) : exec (.j C) st = complete none { st with pc := st.pc + C.toNat } := rfl

/-- The link of `jal`: register 1 reads the old pc plus 1, masked, and every other register reads as before. -/
theorem reg_setReg_ra (st : State) (j : RegIdx) :
    (st.setReg ra ((st.pc : Int) + 1)).reg j = if j = 1 then BitVec.ofNat 32 (st.pc + 1) else st.reg j := by
  have hra : ra = 1 := rfl
  have hlink : mask32 ((st.pc : Int) + 1) = BitVec.ofNat 32 (st.pc + 1) := mask32_natCast (st.pc + 1)
  rw [State.reg_setReg, hlink, hra]
  simp

/-- Settles O21: `jal` is the write of the link and a jump. -/
theorem jalLinksAndJumps : Obligations.JalLinksAndJumps := by
  refine ⟨fun st C => ⟨_, ⟨exec_jal C st, rfl⟩, rfl, ?registers, ?memory, ?stack, ?surroundings⟩, fun w C => ?encoding⟩
  case registers => exact reg_setReg_ra st
  case memory => exact fun a => by simp
  case stack => simp
  case surroundings => constructor <;> simp
  case encoding => exact decode_eq_some_iff_of_constant rfl rfl w

/-- Settles O23: `j` is one jump, to the exact sum of the pc and the constant. -/
theorem jumpsForwardByTheConstant : Obligations.JumpsForwardByTheConstant :=
  ⟨fun st C => endsIn_of_jump (exec_j C st), fun w _ => decode_eq_some_iff_of_constant rfl rfl w⟩

end Sys2Proof.Machine

/-! A load after a store (20_memory.md R38). -/

namespace Sys2Proof.Machine

/-- A store that completes is inside the memory and changes one cell and the reported outcome. -/
theorem eq_of_sw_done {st u : State} {t s : RegIdx} {C : Const} (hnext : exec (.sw t C s) st = .next u)
    (hdone : u.outcome = some (.done none)) :
    u = { st with mem := st.mem.write (effAddr s C st) (st.reg t), outcome := some (.done none) } := by
  by_cases hinside : effAddr s C st < st.params.memCells
  · rw [exec_sw_of_lt t hinside] at hnext
    exact (Host.Outcome.next.inj hnext).symm
  · rw [exec_sw_of_le t (not_lt.mp hinside)] at hnext
    obtain rfl := Host.Outcome.next.inj hnext
    cases hdone

/-- Settles O49: the store leaves every address as it was, and the load reads the memory with the one cell written. -/
theorem loadSeesTheStoreBeforeIt : Obligations.LoadSeesTheStoreBeforeIt := by
  intro st u t s d b C D hnext hdone hinside
  obtain rfl := eq_of_sw_done hnext hdone
  refine writesRegister_of_writeBack (exec_lw_of_lt d hinside) ?_
  rw [mask32_toNat, Memory.read_write]
  rfl

end Sys2Proof.Machine

/-! The operand fields of a word (30_encoding.md R47, R48): what stands in one field of a word that is put together from
others, and the operand bits of the assembler (R64, R65). -/

namespace Sys2Proof

/-! ### Bits of a field -/

theorem getLsbD_putField5 (lo v i : Nat) :
    (putField5 lo v).getLsbD i = (decide (i < 32) && decide (lo ≤ i) && decide (i - lo < 5) && v.testBit (i - lo)) := by
  have hmask : (v % 32).testBit (i - lo) = (decide (i - lo < 5) && v.testBit (i - lo)) := Nat.testBit_mod_two_pow v 5 _
  rw [putField5, BitVec.getLsbD_shiftLeft, BitVec.getLsbD_ofNat, hmask]
  have hlo : (!decide (i < lo)) = decide (lo ≤ i) := Bool.eq_iff_iff.mpr (by simp)
  rw [hlo]
  by_cases h5 : i - lo < 5
  · simp [h5, h5.trans (by decide : 5 < 32), Bool.and_assoc]
  · simp [h5]

theorem getLsbD_putField16 (v i : Nat) : (putField16 v).getLsbD i = (decide (i < 16) && v.testBit i) := by
  have hmask : (v % 65536).testBit i = (decide (i < 16) && v.testBit i) := Nat.testBit_mod_two_pow v 16 i
  rw [putField16, BitVec.getLsbD_ofNat, hmask]
  by_cases h : i < 16
  · simp [h, h.trans (by decide : 16 < 32)]
  · simp [h]

theorem testBit_field5 (lo : Nat) (w : Word) (k : Nat) : (field5 lo w).testBit k = (decide (k < 5) && w.getLsbD (lo + k)) :=
  BitVec.getLsbD_extractLsb' lo 5 w k

theorem testBit_field16 (w : Word) (k : Nat) : (field16 w).testBit k = (decide (k < 16) && w.getLsbD k) := by
  rw [field16, BitVec.testBit_toNat, BitVec.getLsbD_extractLsb', Nat.zero_add]

/-! ### A field of a word -/

theorem field5_or (lo : Nat) (a b : Word) : field5 lo (a ||| b) = field5 lo a ||| field5 lo b := by
  rw [field5, BitVec.extractLsb'_or, BitVec.toNat_or, field5, field5]

theorem field16_or (a b : Word) : field16 (a ||| b) = field16 a ||| field16 b := by
  rw [field16, BitVec.extractLsb'_or, BitVec.toNat_or, field16, field16]

theorem field5_putField5 {lo : Nat} (hlo : lo ≤ 27) (v : Nat) : field5 lo (putField5 lo v) = v % 32 := by
  apply Nat.eq_of_testBit_eq
  intro k
  rw [testBit_field5, getLsbD_putField5, show 32 = 2 ^ 5 from rfl, Nat.testBit_mod_two_pow]
  by_cases hk : k < 5
  · have hin : lo + k < 32 := by omega
    simp [hk, hin]
  · simp [hk]

/-- Two fields that do not meet do not see each other. -/
theorem field5_putField5_of_disjoint {lo lo' : Nat} (h : lo + 5 ≤ lo' ∨ lo' + 5 ≤ lo) (v : Nat) :
    field5 lo (putField5 lo' v) = 0 := by
  apply Nat.eq_of_testBit_eq
  intro k
  rw [testBit_field5, getLsbD_putField5, Nat.zero_testBit]
  by_cases hk : k < 5
  · rcases h with hbelow | habove
    · have houtside : ¬ lo' ≤ lo + k := by omega
      simp [houtside]
    · have houtside : ¬ lo + k - lo' < 5 := by omega
      simp [houtside]
  · simp [hk]

theorem field5_putField16 {lo : Nat} (hlo : 16 ≤ lo) (v : Nat) : field5 lo (putField16 v) = 0 := by
  apply Nat.eq_of_testBit_eq
  intro k
  rw [testBit_field5, getLsbD_putField16, Nat.zero_testBit]
  have houtside : ¬ lo + k < 16 := by omega
  simp [houtside]

theorem field16_putField5 {lo : Nat} (hlo : 16 ≤ lo) (v : Nat) : field16 (putField5 lo v) = 0 := by
  apply Nat.eq_of_testBit_eq
  intro k
  rw [testBit_field16, getLsbD_putField5, Nat.zero_testBit]
  by_cases hk : k < 16
  · have houtside : ¬ lo ≤ k := by omega
    simp [houtside]
  · simp [hk]

theorem field16_putField16 (v : Nat) : field16 (putField16 v) = v % 65536 := by
  apply Nat.eq_of_testBit_eq
  intro k
  rw [testBit_field16, getLsbD_putField16, show 65536 = 2 ^ 16 from rfl, Nat.testBit_mod_two_pow, ← Bool.and_assoc,
    Bool.and_self]

/-- Putting a field back where it was read keeps the bits of the field. -/
theorem putField5_field5 (lo : Nat) (w : Word) : putField5 lo (field5 lo w) = w &&& putField5 lo 31 := by
  apply BitVec.eq_of_getLsbD_eq
  intro i hi
  rw [BitVec.getLsbD_and, getLsbD_putField5, getLsbD_putField5, testBit_field5, show 31 = 2 ^ 5 - 1 from rfl,
    Nat.testBit_two_pow_sub_one]
  by_cases hlo : lo ≤ i
  · rw [Nat.add_sub_cancel' hlo]
    by_cases h5 : i - lo < 5 <;> simp [hi, hlo, h5]
  · simp [hlo]

theorem putField16_field16 (w : Word) : putField16 (field16 w) = w &&& putField16 65535 := by
  apply BitVec.eq_of_getLsbD_eq
  intro i hi
  rw [BitVec.getLsbD_and, getLsbD_putField16, getLsbD_putField16, testBit_field16, show 65535 = 2 ^ 16 - 1 from rfl,
    Nat.testBit_two_pow_sub_one]
  by_cases h16 : i < 16 <;> simp [h16]

/-! ### The operand bits of an entry -/

/-- The operand bits that `assemble` puts beside the match (30_encoding.md R64, R65). -/
def Entry.pack (e : Entry) (ops : List Nat) : Word :=
  match e.family with
  | .registerForm => packR ops 21
  | .immediateForm => packI e.signature ops 21

/-- The largest value that the field for a slot holds; in the register form a Constant has 5 bits as well (R47, R48). -/
def widestOperand : Family → Slot → Nat
  | .immediateForm, .constant => 65535
  | _, _ => 31

/-- The bits of a word that the operand fields of an entry cover. -/
def Entry.operandBits (e : Entry) : Word := e.pack (e.signature.map (widestOperand e.family))

theorem assemble_eq {e : Entry} {c : MaskMatch} (hc : e.code = some c) (ops : List Nat) :
    assemble e ops = some (c.pattern ||| e.pack ops) := by
  rw [assemble, Entry.pack, hc]
  cases e.family <;> rfl

/-- In the default catalog the mask tests exactly the bits that no operand field covers (30_encoding.md R49). -/
theorem entry_code (op : Op) : ∃ c, (entry op).code = some c ∧ c.mask = ~~~(entry op).operandBits ∧ c.proper := by
  cases op <;> exact ⟨_, rfl, by decide, by decide⟩

theorem packR_extractR (sig : List Slot) (lo : Nat) (w : Word) :
    packR (extractR sig lo w) lo = w &&& packR (sig.map (widestOperand .registerForm)) lo := by
  induction sig generalizing lo with
  | nil => simp [extractR, packR]
  | cons slot sig ih => rw [extractR, packR, List.map_cons, packR, ih, putField5_field5, ← BitVec.and_or_distrib_left]; rfl

theorem packI_extractI (sig : List Slot) (lo : Nat) (w : Word) :
    packI sig (extractI sig lo w) lo = w &&& packI sig (sig.map (widestOperand .immediateForm)) lo := by
  induction sig generalizing lo with
  | nil => simp [packI]
  | cons slot sig ih =>
    cases slot with
    | register => rw [extractI, packI, List.map_cons, packI, ih, putField5_field5, ← BitVec.and_or_distrib_left]; rfl
    | constant => rw [extractI, packI, List.map_cons, packI, ih, putField16_field16, ← BitVec.and_or_distrib_left]; rfl

/-- Assembling the extracted operands gives the word's own operand bits back. -/
theorem pack_extract (e : Entry) (w : Word) : e.pack (extract e w) = w &&& e.operandBits := by
  rw [Entry.operandBits, Entry.pack, Entry.pack, extract]
  cases e.family with
  | registerForm => exact packR_extractR e.signature 21 w
  | immediateForm => exact packI_extractI e.signature 21 w

end Sys2Proof

/-! The laws of the encoder and the decoder (30_encoding.md R67): each undoes the other, on instructions whose operands fit
their fields and on words that decode. -/

namespace Sys2Proof

theorem encode_eq {i : Instr} {c : MaskMatch} (hc : (entry i.op).code = some c) :
    encode i = c.pattern ||| (entry i.op).pack i.operands := by
  rw [encode, assemble_eq hc, Option.getD_some]

/-! ### A word that decodes -/

/-- A word is its mask bits and its operand bits, and a word that a row accepts has the row's match in its mask bits. -/
theorem pattern_or_operandBits {w mask pattern bits : Word} (haccepts : w &&& mask = pattern) (hmask : mask = ~~~bits) :
    pattern ||| w &&& bits = w := by
  subst hmask haccepts
  apply BitVec.eq_of_getLsbD_eq
  intro i hi
  simp only [BitVec.getLsbD_or, BitVec.getLsbD_and, BitVec.getLsbD_not, hi, decide_true, Bool.true_and]
  cases w.getLsbD i <;> cases bits.getLsbD i <;> rfl

/-- A word that decodes is the word of its instruction. -/
theorem encode_of_decode {w : Word} {i : Instr} (h : decode w = some i) : encode i = w := by
  obtain ⟨haccepts, hfields⟩ := (decode_eq_some_iff_operands w i).mp h
  obtain ⟨c, hc, hmask, _⟩ := entry_code i.op
  obtain ⟨c', hc', hmatch⟩ := Entry.accepts_iff.mp haccepts
  obtain rfl : c = c' := Option.some.inj (hc.symm.trans hc')
  rw [encode_eq hc, ← hfields, pack_extract, pattern_or_operandBits hmatch hmask]

theorem fitsField_extractLsb' (lo : Nat) (w : Word) : fitsField (w.extractLsb' lo 5).toNat = true :=
  decide_eq_true (w.extractLsb' lo 5).isLt

/-- The operands of an instruction that a word decodes to fit their fields, since they were read from them. -/
theorem wf_of_decode {w : Word} {i : Instr} (h : decode w = some i) : i.wf = true := by
  cases i with
  | add d s t | sub d s t | mult d s t | fma d s t | div d s t | mod d s t | and d s t | or d s t | xor d s t =>
    obtain ⟨_, rfl, rfl, rfl⟩ := (decode_eq_some_iff_of_threeRegisters rfl rfl w).mp h
    simp only [Instr.wf, fitsField_extractLsb', Bool.and_self]
  | addi t s C | andi t s C | ori t s C =>
    obtain ⟨_, rfl, rfl, _⟩ := (decode_eq_some_iff_of_twoRegistersConstant rfl rfl w).mp h
    simp only [Instr.wf, fitsField_extractLsb', Bool.and_self]
  | sll d t C | srl d t C =>
    obtain ⟨_, rfl, rfl, hC⟩ := (decode_eq_some_iff_of_shift rfl rfl w).mp h
    simp only [Instr.wf, fitsField_extractLsb', hC, Bool.and_self]
  | li rd C =>
    obtain ⟨_, rfl, _⟩ := (decode_eq_some_iff_of_oneRegisterConstant rfl rfl w).mp h
    exact fitsField_extractLsb' 21 w
  | lw t C s | sw t C s =>
    obtain ⟨_, rfl, rfl, _⟩ := (decode_eq_some_iff_of_registerConstantRegister rfl rfl w).mp h
    simp only [Instr.wf, fitsField_extractLsb', Bool.and_self]
  | stpush r | stpop r | jr r | pkr r =>
    obtain ⟨_, rfl⟩ := (decode_eq_some_iff_of_oneRegister rfl rfl w).mp h
    exact fitsField_extractLsb' 21 w
  | stpushi C | jal C | j C | pkm C => rfl

/-- Settles O54: the match and the operand bits of the word are the word, and the operands were read from its fields. -/
theorem encodeAfterDecode : Obligations.EncodeAfterDecode :=
  fun _ _ h => ⟨wf_of_decode h, encode_of_decode h⟩

/-! ### An instruction whose operands fit -/

theorem field5_zero (lo : Nat) : field5 lo 0 = 0 := by
  rw [field5, BitVec.ofNat_eq_ofNat, BitVec.extractLsb'_zero, BitVec.toNat_zero]

theorem field16_zero : field16 0 = 0 := rfl

/-- A word with no bit in a field holds 0 there. -/
theorem field5_eq_zero {lo : Nat} (hlo : lo ≤ 27) {w : Word} (h : w &&& putField5 lo 31 = 0) : field5 lo w = 0 := by
  have hput : field5 lo (putField5 lo (field5 lo w)) = 0 := by rw [putField5_field5, h, field5_zero]
  rwa [field5_putField5 hlo, Nat.mod_eq_of_lt (field5_lt lo w)] at hput

theorem field16_eq_zero {w : Word} (h : w &&& putField16 65535 = 0) : field16 w = 0 := by
  have hput : field16 (putField16 (field16 w)) = 0 := by rw [putField16_field16, h, field16_zero]
  rwa [field16_putField16, Nat.mod_eq_of_lt (show field16 w < 65536 from (w.extractLsb' 0 16).isLt)] at hput

theorem and_eq_zero_of_and_or_eq_zero {a b c : Word} (h : a &&& (b ||| c) = 0) : a &&& b = 0 ∧ a &&& c = 0 := by
  rw [BitVec.and_or_distrib_left] at h
  exact BitVec.or_eq_zero_iff.mp h

theorem extractR_or {sig : List Slot} {lo : Nat} (hlo : lo ≤ 27) {p : Word}
    (h : p &&& packR (sig.map (widestOperand .registerForm)) lo = 0) (w : Word) :
    extractR sig lo (p ||| w) = extractR sig lo w := by
  induction sig generalizing lo with
  | nil => rfl
  | cons slot sig ih =>
    obtain ⟨hfield, hrest⟩ := and_eq_zero_of_and_or_eq_zero h
    rw [extractR, extractR, field5_or, field5_eq_zero hlo hfield, Nat.zero_or, ih (by omega) hrest]

theorem extractI_or {sig : List Slot} {lo : Nat} (hlo : lo ≤ 27) {p : Word}
    (h : p &&& packI sig (sig.map (widestOperand .immediateForm)) lo = 0) (w : Word) :
    extractI sig lo (p ||| w) = extractI sig lo w := by
  induction sig generalizing lo with
  | nil => rfl
  | cons slot sig ih =>
    cases slot with
    | register =>
      obtain ⟨hfield, hrest⟩ := and_eq_zero_of_and_or_eq_zero h
      rw [extractI, extractI, field5_or, field5_eq_zero hlo hfield, Nat.zero_or, ih (by omega) hrest]
    | constant =>
      obtain ⟨hfield, hrest⟩ := and_eq_zero_of_and_or_eq_zero h
      rw [extractI, extractI, field16_or, field16_eq_zero hfield, Nat.zero_or, ih hlo hrest]

/-- Bits outside the operand fields do not reach the operands. -/
theorem extract_or {e : Entry} {p : Word} (h : p &&& e.operandBits = 0) (w : Word) : extract e (p ||| w) = extract e w := by
  rw [Entry.operandBits, Entry.pack] at h
  rw [extract, extract]
  cases hf : e.family <;> rw [hf] at h
  · exact extractR_or (by decide) h w
  · exact extractI_or (by decide) h w

theorem Const.toNat_mod (C : Const) : C.toNat % 65536 = C.toNat := Nat.mod_eq_of_lt C.isLt

section
variable {a b c : Nat} {C : Const}

theorem extractR_packR_three (h : (fitsField a && fitsField b && fitsField c) = true) (k l m : Slot) :
    extractR [k, l, m] 21 (packR [a, b, c] 21) = [a, b, c] := by
  simp only [fitsField, Bool.and_eq_true, decide_eq_true_eq] at h
  simp [extractR, packR, field5_or, field5_putField5, field5_putField5_of_disjoint, Nat.mod_eq_of_lt, h]

theorem extractR_packR_one (h : fitsField a = true) (k : Slot) : extractR [k] 21 (packR [a] 21) = [a] := by
  simp only [fitsField, decide_eq_true_eq] at h
  simp [extractR, packR, field5_putField5, Nat.mod_eq_of_lt, h]

theorem extractI_packI_registers (h : (fitsField a && fitsField b) = true) :
    extractI [.register, .register, .constant] 21 (packI [.register, .register, .constant] [a, b, C.toNat] 21) =
      [a, b, C.toNat] := by
  simp only [fitsField, Bool.and_eq_true, decide_eq_true_eq] at h
  simp [extractI, packI, field5_or, field16_or, field5_putField5, field5_putField5_of_disjoint, field5_putField16,
    field16_putField5, field16_putField16, Const.toNat_mod, Nat.mod_eq_of_lt, h]

theorem extractI_packI_address (h : (fitsField a && fitsField b) = true) :
    extractI [.register, .constant, .register] 21 (packI [.register, .constant, .register] [a, C.toNat, b] 21) =
      [a, C.toNat, b] := by
  simp only [fitsField, Bool.and_eq_true, decide_eq_true_eq] at h
  simp [extractI, packI, field5_or, field16_or, field5_putField5, field5_putField5_of_disjoint, field5_putField16,
    field16_putField5, field16_putField16, Const.toNat_mod, Nat.mod_eq_of_lt, h]

theorem extractI_packI_register (h : fitsField a = true) :
    extractI [.register, .constant] 21 (packI [.register, .constant] [a, C.toNat] 21) = [a, C.toNat] := by
  simp only [fitsField, decide_eq_true_eq] at h
  simp [extractI, packI, field5_or, field16_or, field5_putField5, field5_putField16, field16_putField5,
    field16_putField16, Const.toNat_mod, Nat.mod_eq_of_lt, h]

theorem extractI_packI_constant : extractI [.constant] 21 (packI [.constant] [C.toNat] 21) = [C.toNat] := by
  simp [extractI, packI, field16_putField16, Const.toNat_mod]

end

/-- The fields that the assembler filled hold the operands again, row shape by row shape. -/
theorem extract_pack_operands {i : Instr} (h : i.wf = true) :
    extract (entry i.op) ((entry i.op).pack i.operands) = i.operands := by
  cases i with
  | add d s t | sub d s t | mult d s t | fma d s t | div d s t | mod d s t | and d s t | or d s t | xor d s t =>
    exact extractR_packR_three h .register .register .register
  | sll d t C | srl d t C => exact extractR_packR_three h .register .register .constant
  | stpush r | stpop r | jr r | pkr r => exact extractR_packR_one h .register
  | addi t s C | andi t s C | ori t s C => exact extractI_packI_registers h
  | lw t C s | sw t C s => exact extractI_packI_address h
  | li rd C => exact extractI_packI_register h
  | stpushi C | jal C | j C | pkm C => exact extractI_packI_constant

/-- The operand bits of an instruction lie in the operand fields: they are what the fields hold. -/
theorem pack_operands_and_operandBits {i : Instr} (h : i.wf = true) :
    (entry i.op).pack i.operands &&& (entry i.op).operandBits = (entry i.op).pack i.operands := by
  rw [← pack_extract, extract_pack_operands h]

/-- Outside the operand fields a word put together from a match and operand bits is the match. -/
theorem pattern_or_and_not {p x bits : Word} (hp : p &&& bits = 0) (hx : x &&& bits = x) : (p ||| x) &&& ~~~bits = p := by
  have hdisjoint : x &&& ~~~bits = 0 := by rw [← hx, BitVec.and_assoc]; simp
  have hinside : p &&& ~~~bits = p := by
    calc p &&& ~~~bits = p &&& bits ||| p &&& ~~~bits := by simp [hp]
      _ = p := by rw [← BitVec.and_or_distrib_left, BitVec.or_not_self, BitVec.and_allOnes]
  rw [BitVec.and_comm, BitVec.and_or_distrib_left, BitVec.and_comm, hinside, BitVec.and_comm, hdisjoint]
  simp

/-- The word of an instruction whose operands fit decodes to it: its row accepts the word, and the fields hold the
operands. -/
theorem decode_encode {i : Instr} (h : i.wf = true) : decode (encode i) = some i := by
  obtain ⟨c, hc, hmask, hproper⟩ := entry_code i.op
  have hpattern : c.pattern &&& (entry i.op).operandBits = 0 := by
    rwa [MaskMatch.proper, hmask, BitVec.not_not] at hproper
  rw [decode_eq_some_iff_operands, encode_eq hc]
  constructor
  · rw [Entry.accepts_iff]
    exact ⟨c, hc, hmask ▸ pattern_or_and_not hpattern (pack_operands_and_operandBits h)⟩
  · rw [extract_or hpattern, extract_pack_operands h]

/-- Settles O53: the row of the instruction accepts the assembled word, and its fields hold the operands again. -/
theorem decodeAfterEncode : Obligations.DecodeAfterEncode := fun _ h => decode_encode h

end Sys2Proof

/-! The assembler's numbers (30_encoding.md R64): operands enter the register form modulo 32, and its fields stand side by
side. -/

namespace Sys2Proof

theorem packR_map_mod (ops : List Nat) (lo : Nat) : packR (ops.map (· % 32)) lo = packR ops lo := by
  induction ops generalizing lo with
  | nil => rfl
  | cons v ops ih => rw [List.map_cons, packR, packR, ih, putField5, putField5, Nat.mod_mod]

theorem toNat_putField5 {lo : Nat} (hlo : lo ≤ 27) (v : Nat) : (putField5 lo v).toNat = (v % 32) <<< lo := by
  have hfits : (v % 32) <<< lo < 2 ^ 32 := by
    calc (v % 32) <<< lo = v % 32 * 2 ^ lo := Nat.shiftLeft_eq _ _
      _ < 2 ^ 5 * 2 ^ lo := Nat.mul_lt_mul_of_pos_right (Nat.mod_lt v (by decide)) (Nat.two_pow_pos lo)
      _ = 2 ^ (5 + lo) := (Nat.pow_add 2 5 lo).symm
      _ ≤ 2 ^ 32 := Nat.pow_le_pow_right (by decide) (by omega)
  have hval : (BitVec.ofNat 32 (v % 32)).toNat = v % 32 := by rw [BitVec.toNat_ofNat]; omega
  rw [putField5, BitVec.toNat_shiftLeft, hval, Nat.mod_eq_of_lt hfits]

/-- A field above the bits of a word adds its value at its place. -/
theorem toNat_putField5_or {lo : Nat} (hlo : lo ≤ 27) (v : Nat) {w : Word} (hw : w.toNat < 2 ^ lo) :
    (putField5 lo v ||| w).toNat = v % 32 * 2 ^ lo + w.toNat := by
  rw [BitVec.toNat_or, toNat_putField5 hlo, ← Nat.shiftLeft_add_eq_or_of_lt hw, Nat.shiftLeft_eq]

/-- The operands of a word that is put together from the top down, with the match moved to the bottom. -/
theorem or_rotate (p x y z : Word) : p ||| (x ||| (y ||| (z ||| 0))) = x ||| (y ||| (z ||| p)) := by
  have hzero : z ||| 0 = z := BitVec.or_zero
  rw [hzero]
  ac_rfl

/-- A register-form word with three operands, as a number. -/
theorem toNat_packR_three {p : Word} (hp : p.toNat < 2 ^ 11) (a b c : Nat) :
    (p ||| packR [a, b, c] 21).toNat = a % 32 * 2 ^ 21 + b % 32 * 2 ^ 16 + c % 32 * 2 ^ 11 + p.toNat := by
  have hlow : (putField5 11 c ||| p).toNat = c % 32 * 2 ^ 11 + p.toNat := toNat_putField5_or (by decide) c hp
  have hmid : (putField5 16 b ||| (putField5 11 c ||| p)).toNat = b % 32 * 2 ^ 16 + (c % 32 * 2 ^ 11 + p.toNat) := by
    rw [toNat_putField5_or (by decide) b (by omega), hlow]
  have hword : p ||| packR [a, b, c] 21 = putField5 21 a ||| (putField5 16 b ||| (putField5 11 c ||| p)) :=
    or_rotate p _ _ _
  rw [hword, toNat_putField5_or (by decide) a (by omega), hmid]
  omega

/-- A register-form word with one operand, as a number. -/
theorem toNat_packR_one {p : Word} (hp : p.toNat < 2 ^ 21) (a : Nat) :
    (p ||| packR [a] 21).toNat = a % 32 * 2 ^ 21 + p.toNat := by
  rw [← toNat_putField5_or (by decide) a hp, BitVec.or_comm]
  simp [packR]

/-- Settles O57: each field takes its operand modulo 32, and a word's fields add up. -/
theorem assemblerTruncatesToTheField : Obligations.AssemblerTruncatesToTheField := by
  refine ⟨fun op ops hfamily => ?truncation, fun d s t => ?add, fun d t C => ?sll, fun r => ?pkr⟩
  case truncation =>
    obtain ⟨c, hc, _⟩ := entry_code op
    rw [assemble_eq hc, assemble_eq hc, Entry.pack, Entry.pack, hfamily, packR_map_mod]
  case add => exact toNat_packR_three (p := 1) (by decide) d s t
  case sll => exact toNat_packR_three (p := 10) (by decide) d t C.toNat
  case pkr => exact toNat_packR_one (p := 15) (by decide) r

end Sys2Proof

/-! The catalog check (30_encoding.md R54): what it says of two pairs, and that it makes the decoded entry independent of the
scan order. -/

namespace Sys2Proof

theorem MaskMatch.disjoint.symm {a b : MaskMatch} (h : a.disjoint b) : b.disjoint a := by
  rw [MaskMatch.disjoint, BitVec.xor_comm, BitVec.and_assoc, BitVec.and_comm b.mask, ← BitVec.and_assoc]
  exact h

/-- One bit of `MaskMatch.matches_or`: matches `p` and `q` inside masks `m` and `n`, in agreement where both test. -/
theorem or_and_eq_of_agree : ∀ p q m n : Bool,
    (p && !m) = false → (q && !n) = false → ((p ^^ q) && m && n) = false → ((p || q) && m) = p := by decide

/-- Two proper pairs that agree on every bit both test are matched by a common word: all bits that either asks for. -/
theorem MaskMatch.matches_or {a b : MaskMatch} (ha : a.proper) (hb : b.proper) (h : ¬ a.disjoint b) :
    (a.pattern ||| b.pattern) &&& a.mask = a.pattern := by
  rw [MaskMatch.disjoint, ne_eq, not_not] at h
  apply BitVec.eq_of_getLsbD_eq
  intro i hi
  have hai := congrArg (fun w : Word => w.getLsbD i) ha
  have hbi := congrArg (fun w : Word => w.getLsbD i) hb
  have hagree := congrArg (fun w : Word => w.getLsbD i) h
  simp only [BitVec.getLsbD_and, BitVec.getLsbD_not, BitVec.getLsbD_xor, BitVec.ofNat_eq_ofNat, BitVec.getLsbD_zero, hi,
    decide_true, Bool.true_and] at hai hbi hagree
  rw [BitVec.getLsbD_and, BitVec.getLsbD_or]
  exact or_and_eq_of_agree _ _ _ _ hai hbi hagree

theorem MaskMatch.disjoint_iff {a b : MaskMatch} (ha : a.proper) (hb : b.proper) :
    a.disjoint b ↔ ¬ ∃ w : Word, w &&& a.mask = a.pattern ∧ w &&& b.mask = b.pattern := by
  constructor
  · rintro h ⟨w, hwa, hwb⟩
    exact h.not_both hwa hwb
  · intro hnone
    refine Classical.byContradiction fun h => hnone ⟨a.pattern ||| b.pattern, MaskMatch.matches_or ha hb h, ?_⟩
    rw [BitVec.or_comm]
    exact MaskMatch.matches_or hb ha fun hsymm => h hsymm.symm

theorem codes_pairwise_of_perm {cat cat' : List Entry} (h : (codes cat).Pairwise MaskMatch.disjoint)
    (hperm : cat.Perm cat') : (codes cat').Pairwise MaskMatch.disjoint :=
  ((hperm.filterMap Entry.code).pairwise_iff fun hab => MaskMatch.disjoint.symm hab).mp h

theorem mem_and_accepts_of_decodeEntry {cat : List Entry} {w : Word} {e : Entry} (h : decodeEntry cat w = some e) :
    e ∈ cat ∧ e.accepts w = true :=
  ⟨List.mem_of_find?_eq_some h, by simpa using List.find?_some h⟩

/-- The scan order is irrelevant: what one order finds, the other finds, and neither finds what no entry accepts. -/
theorem decodeEntry_perm {cat cat' : List Entry} (h : (codes cat).Pairwise MaskMatch.disjoint) (hperm : cat.Perm cat')
    (w : Word) : decodeEntry cat w = decodeEntry cat' w := by
  cases hfound : decodeEntry cat w with
  | some e =>
    obtain ⟨hmem, haccepts⟩ := mem_and_accepts_of_decodeEntry hfound
    exact (decodeEntry_of_accepts (codes_pairwise_of_perm h hperm) (hperm.mem_iff.mp hmem) haccepts).symm
  | none =>
    have hnone := List.find?_eq_none.mp hfound
    exact (List.find?_eq_none.mpr fun e he => hnone e (hperm.mem_iff.mpr he)).symm

/-- Settles O56: the scan finds every entry that accepts the word, and two such entries are what it finds. -/
theorem catalogCheckMakesDecodingUnique : Obligations.CatalogCheckMakesDecodingUnique := by
  refine ⟨catalog_wf, fun cat w e f hwf he hf hew hfw => ?unique, fun cat cat' w hwf hperm => ?order,
    fun a b ha hb => MaskMatch.disjoint_iff ha hb⟩
  case unique =>
    obtain ⟨_, hpairs, _⟩ := hwf
    exact Option.some.inj ((decodeEntry_of_accepts hpairs he hew).symm.trans (decodeEntry_of_accepts hpairs hf hfw))
  case order =>
    obtain ⟨_, hpairs, _⟩ := hwf
    exact decodeEntry_perm hpairs hperm w

end Sys2Proof

/-! The words that match no entry (30_encoding.md R57): the five forms of a pair in the default catalog, what each form asks of
a word's opcode, funct and reserved fields, and the statement. -/

namespace Sys2Proof

/-! ### Masks made of fields -/

/-- The mask that tests the `len` bits of a word from bit `lo` on. -/
def fieldMask (lo len : Nat) : Word := (BitVec.allOnes len).setWidth 32 <<< lo

theorem getLsbD_fieldMask (lo len i : Nat) :
    (fieldMask lo len).getLsbD i = (decide (i < 32) && decide (lo ≤ i) && decide (i - lo < len)) := by
  have hlo : (!decide (i < lo)) = decide (lo ≤ i) := Bool.eq_iff_iff.mpr (by simp)
  rw [fieldMask, BitVec.getLsbD_shiftLeft, hlo, BitVec.getLsbD_setWidth, BitVec.getLsbD_allOnes]
  by_cases h : i < 32
  · simp [h, (Nat.sub_le i lo).trans_lt h]
  · simp [h]

/-- Two words agree under the mask of a field exactly when they hold the same value in the field. -/
theorem and_fieldMask_eq_iff {lo len : Nat} (hin : lo + len ≤ 32) (w q : Word) :
    w &&& fieldMask lo len = q &&& fieldMask lo len ↔ w.extractLsb' lo len = q.extractLsb' lo len := by
  constructor
  · intro h
    apply BitVec.eq_of_getLsbD_eq
    intro k hk
    have hbit := congrArg (fun x : Word => x.getLsbD (lo + k)) h
    have hword : lo + k < 32 := by omega
    simpa only [BitVec.getLsbD_extractLsb', BitVec.getLsbD_and, getLsbD_fieldMask, hk, hword, Nat.le_add_right,
      Nat.add_sub_cancel_left, decide_true, Bool.true_and, Bool.and_true] using hbit
  · intro h
    apply BitVec.eq_of_getLsbD_eq
    intro i hi
    have hbit := congrArg (fun x : BitVec len => x.getLsbD (i - lo)) h
    by_cases hlo : lo ≤ i
    · by_cases hlen : i - lo < len
      · simpa only [BitVec.getLsbD_extractLsb', BitVec.getLsbD_and, getLsbD_fieldMask, hi, hlo, hlen,
          Nat.add_sub_cancel' hlo, decide_true, Bool.true_and, Bool.and_true] using hbit
      · simp [getLsbD_fieldMask, hlen]
    · simp [getLsbD_fieldMask, hlo]

theorem or_and_absorb (a b : Word) : (a ||| b) &&& a = a := by
  apply BitVec.eq_of_getLsbD_eq
  intro i _
  rw [BitVec.getLsbD_and, BitVec.getLsbD_or]
  cases a.getLsbD i <;> cases b.getLsbD i <;> rfl

/-- Agreeing under two masks together is agreeing under each. -/
theorem and_or_mask_eq_iff (w q a b : Word) :
    w &&& (a ||| b) = q &&& (a ||| b) ↔ w &&& a = q &&& a ∧ w &&& b = q &&& b := by
  constructor
  · intro h
    have hpart (m : Word) (hm : (a ||| b) &&& m = m) : w &&& m = q &&& m := by
      rw [← hm, ← BitVec.and_assoc, h, BitVec.and_assoc]
    exact ⟨hpart a (or_and_absorb a b), hpart b (BitVec.or_comm a b ▸ or_and_absorb b a)⟩
  · rintro ⟨ha, hb⟩
    rw [BitVec.and_or_distrib_left, BitVec.and_or_distrib_left, ha, hb]

/-- The pairs of the default catalog, form by form (30_encoding.md R49, R52): the register form with three fields and with one,
and the immediate form with two registers, with one, and with none. -/
abbrev CodeForm (c : MaskMatch) : Prop :=
  (∃ f : BitVec 6, 1 ≤ f.toNat ∧ f.toNat ≤ 0x0B ∧ c = ⟨0xFC0007FF, f.setWidth 32⟩) ∨
  (∃ f : BitVec 6, 0x0C ≤ f.toNat ∧ f.toNat ≤ 0x0F ∧ c = ⟨0xFC1FFFFF, f.setWidth 32⟩) ∨
  (∃ o : BitVec 6, 1 ≤ o.toNat ∧ o.toNat ≤ 6 ∧ o ≠ 4 ∧ c = ⟨0xFC000000, o.setWidth 32 <<< 26⟩) ∨
  c = ⟨0xFC1F0000, (4 : BitVec 6).setWidth 32 <<< 26⟩ ∨
  ∃ o : BitVec 6, 7 ≤ o.toNat ∧ o.toNat ≤ 0x0A ∧ c = ⟨0xFFFF0000, o.setWidth 32 <<< 26⟩

theorem codeForm_of_entry {op : Op} {c : MaskMatch} (h : (entry op).code = some c) : CodeForm c := by
  cases op <;> obtain rfl := Option.some.inj h <;> decide

theorem entry_of_codeForm {c : MaskMatch} (h : CodeForm c) : ∃ op, (entry op).code = some c := by
  have hthree : ∀ f : BitVec 6, 1 ≤ f.toNat → f.toNat ≤ 0x0B →
      ∃ op ∈ catalogOrder, (entry op).code = some ⟨0xFC0007FF, f.setWidth 32⟩ := by decide
  have hone : ∀ f : BitVec 6, 0x0C ≤ f.toNat → f.toNat ≤ 0x0F →
      ∃ op ∈ catalogOrder, (entry op).code = some ⟨0xFC1FFFFF, f.setWidth 32⟩ := by decide
  have hregisters : ∀ o : BitVec 6, 1 ≤ o.toNat → o.toNat ≤ 6 → o ≠ 4 →
      ∃ op ∈ catalogOrder, (entry op).code = some ⟨0xFC000000, o.setWidth 32 <<< 26⟩ := by decide
  have hconstant : ∀ o : BitVec 6, 7 ≤ o.toNat → o.toNat ≤ 0x0A →
      ∃ op ∈ catalogOrder, (entry op).code = some ⟨0xFFFF0000, o.setWidth 32 <<< 26⟩ := by decide
  rcases h with ⟨f, hlow, hhigh, rfl⟩ | ⟨f, hlow, hhigh, rfl⟩ | ⟨o, hlow, hhigh, h4, rfl⟩ | rfl | ⟨o, hlow, hhigh, rfl⟩
  · exact (hthree f hlow hhigh).imp fun _ => And.right
  · exact (hone f hlow hhigh).imp fun _ => And.right
  · exact (hregisters o hlow hhigh h4).imp fun _ => And.right
  · exact ⟨.li, rfl⟩
  · exact (hconstant o hlow hhigh).imp fun _ => And.right

/-! ### What each form asks of a word -/

/-- The opcode of a word, in bits 31:26 (30_encoding.md R46). -/
abbrev opcode (w : Word) : BitVec 6 := w.extractLsb' 26 6

/-- The funct of a word of the register form, in bits 5:0 (30_encoding.md R47). -/
abbrev funct (w : Word) : BitVec 6 := w.extractLsb' 0 6

theorem fields_of_funct (f : BitVec 6) :
    (f.setWidth 32 : Word).extractLsb' 26 6 = 0 ∧ (f.setWidth 32 : Word).extractLsb' 0 6 = f := by
  revert f
  decide

theorem opcode_of_shiftLeft (o : BitVec 6) : (o.setWidth 32 <<< 26 : Word).extractLsb' 26 6 = o := by
  revert o
  decide

section
variable (w : Word)

/-- A pair of the register form asks for opcode 0, no bit in the reserved field above the funct, and its funct. -/
theorem and_eq_funct_iff {mask : Word} {len : Nat} (hlen : 6 + len ≤ 32)
    (hmask : mask = fieldMask 26 6 ||| (fieldMask 6 len ||| fieldMask 0 6))
    (hinside : ∀ f : BitVec 6, f.setWidth 32 = f.setWidth 32 &&& mask ∧ (f.setWidth 32).extractLsb' 6 len = 0)
    (f : BitVec 6) :
    w &&& mask = f.setWidth 32 ↔ opcode w = 0 ∧ w.extractLsb' 6 len = 0 ∧ funct w = f := by
  obtain ⟨hpattern, hreserved⟩ := hinside f
  obtain ⟨hopcode, hfunct⟩ := fields_of_funct f
  rw [hpattern, hmask, and_or_mask_eq_iff, and_or_mask_eq_iff, and_fieldMask_eq_iff (by decide), and_fieldMask_eq_iff hlen,
    and_fieldMask_eq_iff (by decide), hopcode, hreserved, hfunct]

/-- A pair of the immediate form with reserved bits asks for its opcode and no bit in the reserved field. -/
theorem and_eq_opcode_reserved_iff {mask : Word} {len : Nat} (hlen : 16 + len ≤ 32)
    (hmask : mask = fieldMask 26 6 ||| fieldMask 16 len)
    (hinside : ∀ o : BitVec 6,
      o.setWidth 32 <<< 26 = o.setWidth 32 <<< 26 &&& mask ∧ (o.setWidth 32 <<< 26).extractLsb' 16 len = 0)
    (o : BitVec 6) :
    w &&& mask = o.setWidth 32 <<< 26 ↔ opcode w = o ∧ w.extractLsb' 16 len = 0 := by
  obtain ⟨hpattern, hreserved⟩ := hinside o
  rw [hpattern, hmask, and_or_mask_eq_iff, and_fieldMask_eq_iff (by decide), and_fieldMask_eq_iff hlen, opcode_of_shiftLeft,
    hreserved]

/-- A pair of the immediate form without reserved bits asks for its opcode alone. -/
theorem and_eq_opcode_iff (o : BitVec 6) : w &&& (0xFC000000 : Word) = o.setWidth 32 <<< 26 ↔ opcode w = o := by
  have hmask : (0xFC000000 : Word) = fieldMask 26 6 := by decide
  have hpattern : o.setWidth 32 <<< 26 = o.setWidth 32 <<< 26 &&& (0xFC000000 : Word) := by revert o; decide
  rw [hpattern, hmask, and_fieldMask_eq_iff (by decide), opcode_of_shiftLeft]

/-- The words that some pair of the default catalog matches, by opcode, funct and reserved bits. -/
theorem exists_codeForm_iff :
    (∃ c, CodeForm c ∧ w &&& c.mask = c.pattern) ↔
      (opcode w = 0 ∧ w.extractLsb' 6 5 = 0 ∧ 1 ≤ (funct w).toNat ∧ (funct w).toNat ≤ 0x0B) ∨
      (opcode w = 0 ∧ w.extractLsb' 6 15 = 0 ∧ 0x0C ≤ (funct w).toNat ∧ (funct w).toNat ≤ 0x0F) ∨
      (1 ≤ (opcode w).toNat ∧ (opcode w).toNat ≤ 6 ∧ opcode w ≠ 4) ∨
      (opcode w = 4 ∧ w.extractLsb' 16 5 = 0) ∨
      (7 ≤ (opcode w).toNat ∧ (opcode w).toNat ≤ 0x0A ∧ w.extractLsb' 16 10 = 0) := by
  have hthree := and_eq_funct_iff w (mask := 0xFC0007FF) (len := 5) (by decide) (by decide) (by decide)
  have hone := and_eq_funct_iff w (mask := 0xFC1FFFFF) (len := 15) (by decide) (by decide) (by decide)
  have hli := and_eq_opcode_reserved_iff w (mask := 0xFC1F0000) (len := 5) (by decide) (by decide) (by decide)
  have hconstant := and_eq_opcode_reserved_iff w (mask := 0xFFFF0000) (len := 10) (by decide) (by decide) (by decide)
  constructor
  · rintro ⟨c, ⟨f, hlow, hhigh, rfl⟩ | ⟨f, hlow, hhigh, rfl⟩ | ⟨o, hlow, hhigh, h4, rfl⟩ | rfl | ⟨o, hlow, hhigh, rfl⟩,
      hmatch⟩
    · obtain ⟨hopcode, hreserved, rfl⟩ := (hthree f).mp hmatch
      exact .inl ⟨hopcode, hreserved, hlow, hhigh⟩
    · obtain ⟨hopcode, hreserved, rfl⟩ := (hone f).mp hmatch
      exact .inr (.inl ⟨hopcode, hreserved, hlow, hhigh⟩)
    · obtain rfl := (and_eq_opcode_iff w o).mp hmatch
      exact .inr (.inr (.inl ⟨hlow, hhigh, h4⟩))
    · exact .inr (.inr (.inr (.inl ((hli 4).mp hmatch))))
    · obtain ⟨rfl, hreserved⟩ := (hconstant o).mp hmatch
      exact .inr (.inr (.inr (.inr ⟨hlow, hhigh, hreserved⟩)))
  · rintro (⟨hopcode, hreserved, hlow, hhigh⟩ | ⟨hopcode, hreserved, hlow, hhigh⟩ | ⟨hlow, hhigh, h4⟩ | h |
      ⟨hlow, hhigh, hreserved⟩)
    · exact ⟨_, .inl ⟨_, hlow, hhigh, rfl⟩, (hthree _).mpr ⟨hopcode, hreserved, rfl⟩⟩
    · exact ⟨_, .inr (.inl ⟨_, hlow, hhigh, rfl⟩), (hone _).mpr ⟨hopcode, hreserved, rfl⟩⟩
    · exact ⟨_, .inr (.inr (.inl ⟨_, hlow, hhigh, h4, rfl⟩)), (and_eq_opcode_iff w _).mpr rfl⟩
    · exact ⟨_, .inr (.inr (.inr (.inl rfl))), (hli 4).mpr h⟩
    · exact ⟨_, .inr (.inr (.inr (.inr ⟨_, hlow, hhigh, rfl⟩))), (hconstant _).mpr ⟨rfl, hreserved⟩⟩

theorem decode_eq_none_iff_codeForm : decode w = none ↔ ¬ ∃ c, CodeForm c ∧ w &&& c.mask = c.pattern := by
  rw [decode_eq_none_iff]
  constructor
  · rintro h ⟨c, hform, hmatch⟩
    obtain ⟨op, hc⟩ := entry_of_codeForm hform
    exact absurd (Entry.accepts_iff.mpr ⟨c, hc, hmatch⟩) (by simp [h op])
  · intro h op
    rw [← Bool.not_eq_true, Entry.accepts_iff]
    rintro ⟨c, hc, hmatch⟩
    exact h ⟨c, codeForm_of_entry hc, hmatch⟩

end

/-- Settles O55: the listed words are those whose opcode, funct and reserved bits fit no form of a pair. -/
theorem unmatchedWordsAreTheListedOnes : Obligations.UnmatchedWordsAreTheListedOnes := by
  intro w
  rw [decode_eq_none_iff_codeForm, exists_codeForm_iff]
  simp only [opcode, funct]
  generalize w.extractLsb' 26 6 = op
  generalize w.extractLsb' 0 6 = fn
  generalize w.extractLsb' 6 5 = reserved5
  generalize w.extractLsb' 6 15 = reserved15
  generalize w.extractLsb' 16 5 = reservedLi
  generalize w.extractLsb' 16 10 = reserved10
  simp only [ne_eq, BitVec.toNat_eq, BitVec.ofNat_eq_ofNat, BitVec.toNat_ofNat]
  grind

end Sys2Proof

/-! Parsing of operands (30_encoding.md R60 to R63): what a list of tokens parses to, and the statement about ill-formed
operands. -/

namespace Sys2Proof.Machine

theorem parseTokens_cons_eq_ok {slot : Slot} {sig : List Slot} {token : Text} {rest : List Text} {ops : List Nat}
    (h : parseTokens (slot :: sig) (token :: rest) = .ok ops) :
    ∃ v vs, ops = v :: vs ∧ parseOperand slot token = some v ∧ parseTokens sig rest = .ok vs := by
  rw [parseTokens] at h
  split at h
  · cases h
  · next v hv =>
    split at h
    · cases h
    · next vs hvs => exact ⟨v, vs, (Except.ok.inj h).symm, hv, hvs⟩

theorem parseTokens_length {sig : List Slot} {toks : List Text} {ops : List Nat} (hlen : toks.length = sig.length)
    (h : parseTokens sig toks = .ok ops) : ops.length = sig.length := by
  induction sig generalizing toks ops with
  | nil => rw [← Except.ok.inj h]; rfl
  | cons slot sig ih =>
    obtain ⟨token, rest, rfl⟩ := List.exists_cons_of_length_eq_add_one hlen
    obtain ⟨v, vs, rfl, _, hvs⟩ := parseTokens_cons_eq_ok h
    rw [List.length_cons, List.length_cons, ih (Nat.succ.inj hlen) hvs]

/-- Each operand is the value of its token in its slot. -/
theorem parseTokens_getElem? {sig : List Slot} {toks : List Text} {ops : List Nat} {k : Nat} {slot : Slot} {token : Text}
    (h : parseTokens sig toks = .ok ops) (hslot : sig[k]? = some slot) (htoken : toks[k]? = some token) :
    parseOperand slot token = ops[k]? := by
  induction sig generalizing toks ops k with
  | nil => cases hslot
  | cons slot' sig ih =>
    cases toks with
    | nil => cases htoken
    | cons token' rest =>
      obtain ⟨v, vs, rfl, hv, hvs⟩ := parseTokens_cons_eq_ok h
      cases k with
      | zero =>
        obtain rfl := Option.some.inj hslot
        obtain rfl := Option.some.inj htoken
        exact hv
      | succ k =>
        rw [List.getElem?_cons_succ] at hslot htoken ⊢
        exact ih hvs hslot htoken

theorem parseTokens_eq_error {sig : List Slot} {toks : List Text} {f : Fault} (h : parseTokens sig toks = .error f) :
    ∃ tok, f = .parseError tok := by
  induction sig generalizing toks with
  | nil => cases h
  | cons slot sig ih =>
    cases toks with
    | nil => cases h
    | cons token rest =>
      rw [parseTokens] at h
      split at h
      · exact ⟨token, (Except.error.inj h).symm⟩
      · split at h
        · next hrest =>
          obtain rfl := Except.error.inj h
          exact ih hrest
        · cases h

section
variable {sig : List Slot} {rest : Text}

theorem parseOperands_eq_error {f : Fault} (h : parseOperands sig rest = .error f) : ∃ tok, f = .parseError tok := by
  rw [parseOperands] at h
  split at h
  · exact parseTokens_eq_error h
  · exact ⟨rest, (Except.error.inj h).symm⟩

theorem parseOperands_eq_ok {ops : List Nat} (h : parseOperands sig rest = .ok ops) :
    (tokens rest).length = sig.length ∧ parseTokens sig (tokens rest) = .ok ops := by
  rw [parseOperands] at h
  split at h
  · next hlen => exact ⟨hlen, h⟩
  · cases h

theorem parseOperands_length {ops : List Nat} (h : parseOperands sig rest = .ok ops) : ops.length = sig.length := by
  obtain ⟨hlen, htokens⟩ := parseOperands_eq_ok h
  exact parseTokens_length hlen htokens

theorem parseOperands_of_length_ne (h : (tokens rest).length ≠ sig.length) :
    parseOperands sig rest = .error (.parseError rest) := if_neg h

/-- A token without a value in its slot leaves no result but an error. -/
theorem parseOperands_of_parseOperand_eq_none {k : Nat} {slot : Slot} {token : Text} (hslot : sig[k]? = some slot)
    (htoken : (tokens rest)[k]? = some token) (hnone : parseOperand slot token = none) :
    ∃ tok, parseOperands sig rest = .error (.parseError tok) := by
  cases hparse : parseOperands sig rest with
  | error f =>
    obtain ⟨tok, rfl⟩ := parseOperands_eq_error hparse
    exact ⟨tok, rfl⟩
  | ok ops =>
    obtain ⟨hlen, htokens⟩ := parseOperands_eq_ok hparse
    have hmissing := (parseTokens_getElem? htokens hslot htoken).symm.trans hnone
    have hk : k < sig.length := (List.getElem?_eq_some_iff.mp hslot).1
    have := List.getElem?_eq_none_iff.mp hmissing
    have := parseTokens_length hlen htokens
    omega

end

/-- Settles O59: the count decides first, then the tokens one by one; a success holds the value of each token. -/
theorem illFormedOperandsDoNotParse : Obligations.IllFormedOperandsDoNotParse := by
  refine ⟨fun sig rest h => ⟨rest, parseOperands_of_length_ne h⟩, fun sig rest k slot token hslot htoken hnone => ?token,
    fun sig rest ops h => ⟨parseOperands_length h, fun k slot token hslot htoken => ?value⟩⟩
  case token => exact parseOperands_of_parseOperand_eq_none hslot htoken hnone
  case value =>
    obtain ⟨_, htokens⟩ := parseOperands_eq_ok h
    exact parseTokens_getElem? htokens hslot htoken

end Sys2Proof.Machine

/-! Decimal tokens (30_encoding.md R61, R62): the number that a digit string stands for, and the statement about register and
constant tokens. -/

namespace Sys2Proof.Machine

/-- On digits alone, reading a digit string is the library's. -/
theorem digitsFrom_eq {cs : Text} (h : ∀ c ∈ cs, c.isDigit = true) (acc : Nat) :
    digitsFrom acc cs = some (Nat.ofDigitChars 10 cs acc) := by
  induction cs generalizing acc with
  | nil => rfl
  | cons c cs ih =>
    obtain ⟨hc, hcs⟩ := List.forall_mem_cons.mp h
    rw [digitsFrom, if_pos hc, ih hcs]
    rfl

theorem isDigit_of_mem_toDigits {n : Nat} {c : Char} (h : c ∈ Nat.toDigits 10 n) : c.isDigit = true :=
  Nat.isDigit_of_mem_toDigits (by decide) (by decide) h

theorem decimal_toDigits (n : Nat) : decimal (Nat.toDigits 10 n) = some n := by
  have hdigits : digitsFrom 0 (Nat.toDigits 10 n) = some n := by
    rw [digitsFrom_eq (fun _ => isDigit_of_mem_toDigits), Nat.ofDigitChars_toDigits (by decide) (by decide)]
  rw [decimal.eq_def]
  split
  · next hnil => exact absurd hnil Nat.toDigits_ne_nil
  · next hcons => rw [← hcons, hdigits]

/-- No register name is a number: each holds a character that is no digit. -/
theorem registerIndex_toDigits (n : Nat) : registerIndex (Nat.toDigits 10 n) = none := by
  have hnames : ∀ name ∈ registerNames, name.all Char.isDigit = false := by decide
  rw [registerIndex, List.findIdx?_eq_none_iff]
  intro name hname
  rw [beq_eq_false_iff_ne]
  rintro rfl
  have hall : (Nat.toDigits 10 n).all Char.isDigit = true := List.all_eq_true.mpr fun _ => isDigit_of_mem_toDigits
  cases hall.symm.trans (hnames _ hname)

theorem parseRegister_toDigits (n : Nat) : parseRegister ('$' :: Nat.toDigits 10 n) = some n := by
  rw [parseRegister, registerIndex_toDigits]
  exact decimal_toDigits n

/-- A text of digits has no sign. -/
theorem parseConstant_toDigits (n : Nat) : parseConstant (Nat.toDigits 10 n) = some (BitVec.ofNat 16 n) := by
  rw [parseConstant.eq_def]
  split
  · next hsign => exact absurd (isDigit_of_mem_toDigits (hsign ▸ List.mem_cons_self)) (by decide)
  · rw [decimal_toDigits, Option.map_some]

theorem parseConstant_neg_toDigits (n : Nat) :
    parseConstant ('-' :: Nat.toDigits 10 n) = some (BitVec.ofInt 16 (-(n : Int))) := by
  rw [parseConstant, decimal_toDigits]
  rfl

/-- Settles O58: the digits of a number read as the number, and are neither a register name nor signed. -/
theorem decimalTokensGiveTheirNumber : Obligations.DecimalTokensGiveTheirNumber :=
  ⟨parseRegister_toDigits, parseConstant_toDigits, parseConstant_neg_toDigits⟩

end Sys2Proof.Machine

/-! Decoding by any catalog (30_encoding.md R53, R55): where each operand stands in the word, for either family, and the
statement about every catalog that fits. -/

namespace Sys2Proof

theorem extractR_getElem? {sig : List Slot} {k : Nat} {slot : Slot} (h : sig[k]? = some slot) (lo : Nat) (w : Word) :
    (extractR sig lo w)[k]? = some (field5 (lo - 5 * k) w) := by
  induction sig generalizing lo k with
  | nil => cases h
  | cons _ sig ih =>
    cases k with
    | zero => rfl
    | succ k =>
      rw [List.getElem?_cons_succ] at h
      rw [extractR, List.getElem?_cons_succ, ih h, Nat.sub_sub, Nat.mul_succ, Nat.add_comm]

/-- In the immediate form a Register slot takes the 5-bit field after those of the Register slots before it. -/
theorem extractI_getElem? {sig : List Slot} {k : Nat} {slot : Slot} (h : sig[k]? = some slot) (lo : Nat) (w : Word) :
    (extractI sig lo w)[k]? =
      some (if slot = .constant then field16 w else field5 (lo - 5 * (sig.take k).count .register) w) := by
  induction sig generalizing lo k with
  | nil => cases h
  | cons slot' sig ih =>
    cases k with
    | zero =>
      obtain rfl := Option.some.inj h
      cases slot' <;> rfl
    | succ k =>
      rw [List.getElem?_cons_succ] at h
      rw [List.take_succ_cons]
      cases slot' with
      | register =>
        rw [extractI, List.getElem?_cons_succ, ih h, List.count_cons_self, Nat.sub_sub, Nat.mul_succ, Nat.add_comm 5]
      | constant => rw [extractI, List.getElem?_cons_succ, ih h, List.count_cons_of_ne (by decide)]

theorem extract_getElem? {e : Entry} {k : Nat} {slot : Slot} (h : e.signature[k]? = some slot) (w : Word) :
    (extract e w)[k]? = some
      (if e.family = .registerForm then (w.extractLsb' (21 - 5 * k) 5).toNat
      else if slot = .constant then (w.extractLsb' 0 16).toNat
      else (w.extractLsb' (21 - 5 * (e.signature.take k).count .register) 5).toNat) := by
  rw [extract]
  cases e.family with
  | registerForm => exact extractR_getElem? h 21 w
  | immediateForm => exact extractI_getElem? h 21 w

/-- In a catalog that fits, a word that an entry accepts decodes to an instruction of its operation on the entry's fields. -/
theorem decodeWith_of_fits {cat : List Entry} (hwf : CatalogWf cat) (hfits : CatalogFits cat) {e : Entry} (he : e ∈ cat)
    {w : Word} (haccepts : e.accepts w = true) :
    ∃ i : Instr, decodeWith cat w = some i ∧ i.op = e.op ∧ i.operands = extract e w := by
  obtain ⟨_, hpairs, _⟩ := hwf
  obtain ⟨_, hsignature⟩ := hfits
  rw [decodeWith_of_accepts hpairs he haccepts]
  exact Op.build_eq_some (by rw [extract_length, hsignature e he])
    fun k v _ hv => lt_65536_of_mem_extract (List.mem_of_getElem? hv)

/-- Settles O60: the scan finds the entry that accepts the word, and its operation takes every value extracted by it. -/
theorem decodingFollowsTheCatalog : Obligations.DecodingFollowsTheCatalog := by
  rintro p ⟨_, hwf, hfits⟩
  refine ⟨fun w e c he hc hmatch => ?matched, fun w hnone => ?unmatched⟩
  case matched =>
    obtain ⟨i, hdecode, hop, hoperands⟩ := decodeWith_of_fits hwf hfits he (Entry.accepts_iff.mpr ⟨c, hc, hmatch⟩)
    exact ⟨i, hdecode, hop, hoperands ▸ extract_length e w, fun k slot hslot => hoperands ▸ extract_getElem? hslot w⟩
  case unmatched =>
    refine decodeWith_eq_none fun e he => ?_
    rw [← Bool.not_eq_true, Entry.accepts_iff]
    rintro ⟨c, hc, hmatch⟩
    exact hnone e he c hc hmatch

end Sys2Proof

/-! The text front end (30_encoding.md R59, R66; 40_dispatch.md R74, R75, R81): lookup, the operands of a text, the assembler,
and the statements about them. -/

namespace Sys2Proof.Machine

theorem mem_of_lookupMnemonic {cat : List Entry} {m : Text} {e : Entry} (h : lookupMnemonic cat m = some e) : e ∈ cat :=
  List.mem_of_find?_eq_some h

theorem mnemonic_of_lookupMnemonic {cat : List Entry} {m : Text} {e : Entry} (h : lookupMnemonic cat m = some e) :
    e.op.mnemonic = m := by
  simpa using List.find?_some h

/-- What the default catalog's lookup finds is the row of an operation. -/
theorem eq_entry_of_lookupMnemonic {m : Text} {e : Entry} (h : lookupMnemonic catalog m = some e) :
    e = entry e.op := by
  obtain ⟨op, _, rfl⟩ := List.mem_map.mp (mem_of_lookupMnemonic h)
  rw [entry_op]

/-! ### Operands of a text -/

theorem parseOperand_constant_lt {token : Text} {v : Nat} (h : parseOperand .constant token = some v) : v < 65536 := by
  obtain ⟨C, _, rfl⟩ := Option.map_eq_some_iff.mp h
  exact C.isLt

theorem parseOperands_constant_lt {sig : List Slot} {rest : Text} {ops : List Nat} (h : parseOperands sig rest = .ok ops)
    {k v : Nat} (hslot : sig[k]? = some .constant) (hv : ops[k]? = some v) : v < 65536 := by
  obtain ⟨hlen, htokens⟩ := parseOperands_eq_ok h
  obtain ⟨hk, _⟩ := List.getElem?_eq_some_iff.mp hslot
  have htoken : (tokens rest)[k]? = some (tokens rest)[k] := List.getElem?_eq_getElem (hlen ▸ hk)
  exact parseOperand_constant_lt ((parseTokens_getElem? htokens hslot htoken).trans hv)

/-- An operation takes the operands that parse by its own slots, and keeps every one. -/
theorem build_parseOperands {op : Op} {rest : Text} {ops : List Nat} (h : parseOperands (entry op).signature rest = .ok ops) :
    ∃ i, op.build ops = some i ∧ i.op = op ∧ i.operands = ops :=
  Op.build_eq_some (parseOperands_length h) fun _ _ hslot hv => parseOperands_constant_lt h hslot hv

section
variable {cat : List Entry} {line : Text} {e : Entry} (hlookup : lookupMnemonic cat (splitMnemonic line).1 = some e)
include hlookup

theorem parseText_of_error {f : Fault} (h : parseOperands e.signature (splitMnemonic line).2 = .error f) :
    parseText cat line = .error f := by
  rw [parseText, hlookup]
  simp only [h]

theorem parseText_of_ok {ops : List Nat} (h : parseOperands e.signature (splitMnemonic line).2 = .ok ops) :
    parseText cat line = .ok (e.op.build ops) := by
  rw [parseText, hlookup]
  simp only [h]

theorem compileText_of_code_eq_none (hcode : e.code = none) : compileText cat line = .ok none := by
  rw [compileText, hlookup]
  simp only [hcode]

theorem compileText_of_error {c : MaskMatch} (hcode : e.code = some c) {f : Fault}
    (h : parseOperands e.signature (splitMnemonic line).2 = .error f) : compileText cat line = .error f := by
  rw [compileText, hlookup]
  simp only [hcode, h]

theorem compileText_of_ok {c : MaskMatch} (hcode : e.code = some c) {ops : List Nat}
    (h : parseOperands e.signature (splitMnemonic line).2 = .ok ops) :
    compileText cat line = .ok (some (c.pattern ||| e.pack ops)) := by
  rw [compileText, hlookup]
  simp only [hcode, h, assemble_eq hcode]

end

theorem compileText_of_lookupMnemonic_eq_none {cat : List Entry} {line : Text}
    (hlookup : lookupMnemonic cat (splitMnemonic line).1 = none) : compileText cat line = .ok none := by
  rw [compileText, hlookup]

/-- A text that parses to an instruction names the row of its operation, and its operands are the parsed ones. -/
theorem eq_of_parseText {line : Text} {i : Instr} (h : parseText catalog line = .ok (some i)) :
    lookupMnemonic catalog (splitMnemonic line).1 = some (entry i.op) ∧
      parseOperands (entry i.op).signature (splitMnemonic line).2 = .ok i.operands := by
  cases hlookup : lookupMnemonic catalog (splitMnemonic line).1 with
  | none =>
    rw [parseText_of_lookupMnemonic_eq_none hlookup] at h
    cases h
  | some e =>
    obtain ⟨op, rfl⟩ : ∃ op, e = entry op := ⟨e.op, eq_entry_of_lookupMnemonic hlookup⟩
    cases hparse : parseOperands (entry op).signature (splitMnemonic line).2 with
    | error f =>
      rw [parseText_of_error hlookup hparse] at h
      cases h
    | ok ops =>
      obtain ⟨j, hbuild, rfl, rfl⟩ := build_parseOperands hparse
      rw [parseText_of_ok hlookup hparse, entry_op, hbuild] at h
      obtain rfl : j = i := Option.some.inj (Except.ok.inj h)
      exact ⟨rfl, hparse⟩

/-! ### The statements -/

/-- Settles O34: lookup and parsing decide, and the operation takes whatever parses by its slots. -/
theorem executeTextRunsTheParsedOperands : Obligations.ExecuteTextRunsTheParsedOperands := by
  refine ⟨fun st line hlookup => (executeText_eq_skip hlookup).trans (skip_eq st),
    fun st line e hcatalog hlookup => ⟨fun f h => ⟨?error, parseOperands_eq_error h⟩, fun ops h => ?ok⟩⟩
  case error =>
    rw [executeText, parseText_of_error hlookup h]
    rfl
  case ok =>
    obtain ⟨_, _, hsignature⟩ := hcatalog
    have hparse := h
    rw [hsignature e (mem_of_lookupMnemonic hlookup)] at hparse
    obtain ⟨i, hbuild, hop, hoperands⟩ := build_parseOperands hparse
    exact ⟨i, hop, hoperands, by rw [executeText, parseText_of_ok hlookup h, hbuild]⟩

/-- Settles O35: the text assembles to the word of its instruction, and that word decodes to the instruction again. -/
theorem wordAndTextPathsAgree : Obligations.WordAndTextPathsAgree := by
  intro line i hparse hwf
  obtain ⟨hlookup, hoperands⟩ := eq_of_parseText hparse
  obtain ⟨c, hc, _⟩ := entry_code i.op
  refine ⟨encode i, by rw [compileText_of_ok hlookup hc hoperands, encode_eq hc], fun st hcatalog => ?_⟩
  have hdecode : decodeWith st.params.catalog (encode i) = some i := by rw [hcatalog]; exact decode_encode hwf
  rw [executeWord, hdecode, executeText, hcatalog, hparse]

theorem compileText_eq_none_iff (cat : List Entry) (line : Text) :
    compileText cat line = .ok none ↔ ∀ e, lookupMnemonic cat (splitMnemonic line).1 = some e → e.code = none := by
  cases hlookup : lookupMnemonic cat (splitMnemonic line).1 with
  | none => simp [compileText_of_lookupMnemonic_eq_none hlookup]
  | some e =>
    cases hcode : e.code with
    | none => simp [compileText_of_code_eq_none hlookup hcode, hcode]
    | some c =>
      cases hparse : parseOperands e.signature (splitMnemonic line).2 with
      | error f => simp [compileText_of_error hlookup hcode hparse, hcode]
      | ok ops => simp [compileText_of_ok hlookup hcode hparse, hcode]

theorem compileText_catalog_eq_none_iff (line : Text) :
    compileText catalog line = .ok none ↔ ∀ e ∈ catalog, e.op.mnemonic ≠ (splitMnemonic line).1 := by
  rw [compileText_eq_none_iff]
  constructor
  · intro hcode
    cases hlookup : lookupMnemonic catalog (splitMnemonic line).1 with
    | none => exact fun e he heq => List.find?_eq_none.mp hlookup e he (beq_iff_eq.mpr heq)
    | some e =>
      obtain ⟨c, hc, _⟩ := entry_code e.op
      rw [← eq_entry_of_lookupMnemonic hlookup, hcode e hlookup] at hc
      cases hc
  · intro hnone e hlookup
    exact absurd (mnemonic_of_lookupMnemonic hlookup) (hnone e (mem_of_lookupMnemonic hlookup))

theorem compileText_eq_error {cat : List Entry} {line : Text} {f : Fault} (h : compileText cat line = .error f) :
    ∃ tok, f = .parseError tok := by
  rw [compileText] at h
  split at h
  · cases h
  · split at h
    · cases h
    · split at h
      · next hparse => exact Except.error.inj h ▸ parseOperands_eq_error hparse
      · cases h

/-- Settles O36: the assembler gives a word wherever there is an entry with a pair and the operands parse. -/
theorem compileTextFailsOnlyToParse : Obligations.CompileTextFailsOnlyToParse :=
  ⟨compileText_eq_none_iff, compileText_catalog_eq_none_iff, fun _ _ _ => compileText_eq_error⟩

end Sys2Proof.Machine

/-! The end of every instruction and of every transaction (40_dispatch.md R71, R77; 60_exceptions.md R150 to R162), from the
cases of an instruction that answers a next state. -/

namespace Sys2Proof.Machine

/-- Every effect leaves the host's list and the parameters as they were. -/
theorem Effect.sameSurroundings {i : Instr} {st u : State} {ret : Option Word} (h : Effect i st u ret) :
    SameSurroundings st u := by
  cases h with
  | write | pop | link => exact ⟨State.setReg_requests _ _ _, State.setReg_params _ _ _⟩
  | store | push | jump | peekRegister | peekCell => exact ⟨rfl, rfl⟩

/-- Every instruction answers a next state. -/
theorem exec_eq_next (i : Instr) (st : State) : ∃ u, exec i st = .next u := by
  rcases exec_outcomes i st with ⟨f, h, _⟩ | ⟨u, ret, h, _⟩
  · exact ⟨_, h⟩
  · exact ⟨_, h⟩

theorem exec_sameSurroundings {i : Instr} {st u : State} (h : exec i st = .next u) : SameSurroundings st u := by
  rcases exec_next h with ⟨f, rfl, _⟩ | ⟨u', ret, rfl, heffect⟩
  · exact ⟨rfl, rfl⟩
  · exact heffect.sameSurroundings

/-- Settles O38: an instruction takes a fault or completes with an effect, and no effect touches the surroundings. -/
theorem everyInstructionEndsInAnOutcome : Obligations.EveryInstructionEndsInAnOutcome := by
  intro i st
  obtain ⟨u, h⟩ := exec_eq_next i st
  refine ⟨u, h, exec_sameSurroundings h, ?_⟩
  rcases exec_next h with ⟨f, rfl, _⟩ | ⟨u', ret, rfl, _⟩
  · exact .inr ⟨f, rfl⟩
  · exact .inl ⟨ret, rfl⟩

/-- Every transaction answers a next state, in the same surroundings. -/
theorem transact_eq_next (r : Request) (st : State) : ∃ u, transact r st = .next u ∧ SameSurroundings st u := by
  rcases transact_cases r st with h | ⟨f, h⟩ | ⟨i, h⟩
  · exact ⟨_, h.trans (skip_eq st), rfl, rfl⟩
  · exact ⟨_, h.trans (raise_eq f st), rfl, rfl⟩
  · obtain ⟨u, hexec⟩ := exec_eq_next i st
    exact ⟨u, h.trans hexec, exec_sameSurroundings hexec⟩

/-- Settles O37: an idle step answers the same state, and the transaction of any other step a next one. -/
theorem noStepStopsTheMachine : Obligations.NoStepStopsTheMachine := by
  refine ⟨fun st => ?_, fun st => step_of_requests_eq_nil⟩
  cases hrequests : st.requests with
  | nil => exact ⟨st, step_of_requests_eq_nil hrequests, hrequests, rfl⟩
  | cons r rest =>
    obtain ⟨u, hnext, hlist, hparams⟩ := transact_eq_next r { st with requests := rest }
    exact ⟨u, (step_of_requests_eq_cons hrequests).trans hnext, hlist, hparams⟩

/-- Settles O39: a transaction changes the reported outcome alone, or ends in `Done`. -/
theorem failedTransactionChangesNothing : Obligations.FailedTransactionChangesNothing := by
  intro r st u h hfailed
  rcases transact_next h with hreports | ⟨i, u', ret, rfl, _⟩
  · exact hreports
  · rcases hfailed with hnone | ⟨f, hfault⟩
    · cases hnone
    · cases hfault

section
variable {r a b c : Nat} (hinvalid : numRegs ≤ r)
include hinvalid

theorem invalid_of_mem_two (hmem : r ∈ [a, b]) : numRegs ≤ a ∨ numRegs ≤ b :=
  (List.mem_pair.mp hmem).imp (fun h : r = a => h ▸ hinvalid) fun h : r = b => h ▸ hinvalid

theorem invalid_of_mem_three (hmem : r ∈ [a, b, c]) : numRegs ≤ a ∨ numRegs ≤ b ∨ numRegs ≤ c :=
  (List.mem_cons.mp hmem).imp (fun h : r = a => h ▸ hinvalid) (invalid_of_mem_two hinvalid)

/-- A Register operand of 30 or more ends every instruction in the fault. -/
theorem exec_of_invalid_register {i : Instr} {st : State} (hmem : r ∈ i.registers) :
    FaultsWith i st .registerIndexFault := by
  cases i with
  | add d s t => exact faultsWith_of_withRegs3 (exec_add st d s t) (invalid_of_mem_three hinvalid hmem)
  | sub d s t => exact faultsWith_of_withRegs3 (exec_sub d s t st) (invalid_of_mem_three hinvalid hmem)
  | addi t s C => exact faultsWith_of_withRegs2 (exec_addi st t s C) (invalid_of_mem_two hinvalid hmem)
  | mult d s t => exact faultsWith_of_withRegs3 (exec_mult st d s t) (invalid_of_mem_three hinvalid hmem)
  | fma d s t => exact faultsWith_of_withRegs3 (exec_fma st d s t) (invalid_of_mem_three hinvalid hmem)
  | div d s t => exact faultsWith_of_withRegs3 (exec_div d s t st) (invalid_of_mem_three hinvalid hmem)
  | mod d s t => exact faultsWith_of_withRegs3 (exec_mod st d s t) (invalid_of_mem_three hinvalid hmem)
  | and d s t => exact faultsWith_of_withRegs3 (exec_and d s t st) (invalid_of_mem_three hinvalid hmem)
  | or d s t => exact faultsWith_of_withRegs3 (exec_or d s t st) (invalid_of_mem_three hinvalid hmem)
  | xor d s t => exact faultsWith_of_withRegs3 (exec_xor d s t st) (invalid_of_mem_three hinvalid hmem)
  | andi t s C => exact faultsWith_of_withRegs2 (exec_andi t s C st) (invalid_of_mem_two hinvalid hmem)
  | ori t s C => exact faultsWith_of_withRegs2 (exec_ori t s C st) (invalid_of_mem_two hinvalid hmem)
  | sll d t C => exact faultsWith_of_withRegs2 (exec_sll d t C st) (invalid_of_mem_two hinvalid hmem)
  | srl d t C => exact faultsWith_of_withRegs2 (exec_srl d t C st) (invalid_of_mem_two hinvalid hmem)
  | lw t C s => exact faultsWith_of_withRegs2 (exec_lw t C s st) (invalid_of_mem_two hinvalid hmem)
  | sw t C s => exact faultsWith_of_withRegs2 (exec_sw t C s st) (invalid_of_mem_two hinvalid hmem)
  | li rd C => exact faultsWith_of_withReg (exec_li rd C st) (List.mem_singleton.mp hmem ▸ hinvalid)
  | stpush r => exact faultsWith_of_withReg (exec_stpush r st) (List.mem_singleton.mp hmem ▸ hinvalid)
  | stpop rd => exact faultsWith_of_withReg (exec_stpop rd st) (List.mem_singleton.mp hmem ▸ hinvalid)
  | jr r => exact faultsWith_of_withReg (exec_jr r st) (List.mem_singleton.mp hmem ▸ hinvalid)
  | pkr r => exact faultsWith_of_withReg (exec_pkr r st) (List.mem_singleton.mp hmem ▸ hinvalid)
  | stpushi C | jal C | j C | pkm C => cases hmem

end

/-- An instruction that reports a fault has a cause for it. -/
theorem faultCause_of_outcome {i : Instr} {st u : State} {f : Fault} (h : exec i st = .next u)
    (hfault : u.outcome = some (.fault f)) : FaultCause i st f := by
  rcases exec_next h with ⟨g, rfl, hcause⟩ | ⟨u', ret, rfl, _⟩
  · obtain rfl : g = f := by simpa using hfault
    exact hcause
  · cases hfault

/-- Settles O40: validation comes first in every shape, and an invalid register is the fault's only cause. -/
theorem registerIndexFaultComesFirst : Obligations.RegisterIndexFaultComesFirst := by
  refine ⟨fun i st r hmem hinvalid => exec_of_invalid_register hinvalid hmem, fun i st u hvalid h hfault => ?_⟩
  cases faultCause_of_outcome h hfault with
  | registerIndex r hmem hinvalid => exact (hvalid r hmem).not_ge hinvalid

/-- Settles O41: the causes of each kind of fault are the constructors of `FaultCause` for it. -/
theorem eachFaultHasItsCause : Obligations.EachFaultHasItsCause := by
  intro i st u h
  refine ⟨fun hfault => ?arithmetic, fun a hfault => ?bounds, fun hfault => ?underflow, fun hfault => ?overflow,
    fun tok hfault => ?parse⟩
  case arithmetic =>
    cases faultCause_of_outcome h hfault with
    | zeroDivisor d s t hinstr hzero => exact ⟨d, s, t, hinstr, hzero⟩
  case bounds =>
    cases faultCause_of_outcome h hfault with
    | accessBounds t s C hinstr houtside => exact ⟨houtside, .inl ⟨t, s, C, hinstr, rfl⟩⟩
    | peekBounds C hinstr houtside => exact ⟨houtside, .inr ⟨C, hinstr, rfl⟩⟩
  case underflow =>
    cases faultCause_of_outcome h hfault with
    | emptyStack rd hinstr hempty => exact ⟨⟨rd, hinstr⟩, hempty⟩
  case overflow =>
    cases faultCause_of_outcome h hfault with
    | fullStack hinstr hfull => exact ⟨hinstr, (stackFull_iff st).mp hfull⟩
  case parse => cases faultCause_of_outcome h hfault

end Sys2Proof.Machine

/-! Whole-machine rules (10_state.md R15, R17, R22; 20_memory.md R34; 40_dispatch.md R71): what each part of the core can owe to
one instruction, from the kinds of effect. -/

namespace Sys2Proof.Machine

/-- Settles O44: of all effects a link and a jump alone set the pc. -/
theorem onlyJumpsChangeThePc : Obligations.OnlyJumpsChangeThePc := by
  intro i st u h
  rcases exec_next h with ⟨f, rfl, _⟩ | ⟨u', ret, rfl, heffect⟩
  · exact .inl rfl
  · cases heffect with
    | write | pop => exact .inl (State.setReg_pc _ _ _)
    | store | push | peekRegister | peekCell => exact .inl rfl
    | link C hinstr => exact .inr (.inl ⟨C, hinstr⟩)
    | jump pc hinstr =>
      rcases hinstr with ⟨r, hinstr⟩ | ⟨C, hinstr⟩
      · exact .inr (.inr (.inl ⟨r, hinstr⟩))
      · exact .inr (.inr (.inr ⟨C, hinstr⟩))

/-- Settles O45: of all effects a store alone writes the memory. -/
theorem onlySwChangesMemory : Obligations.OnlySwChangesMemory := by
  intro i st u h
  rcases exec_next h with ⟨f, rfl, _⟩ | ⟨u', ret, rfl, heffect⟩
  · exact .inl rfl
  · cases heffect with
    | write | pop | link => exact .inl (State.setReg_mem _ _ _)
    | push | jump | peekRegister | peekCell => exact .inl rfl
    | store t s C hinstr => exact .inr ⟨t, C, s, hinstr⟩

/-- Settles O46: of all effects a push and a pop alone move the stack, each by one entry. -/
theorem onlyPushAndPopMoveTheStack : Obligations.OnlyPushAndPopMoveTheStack := by
  intro i st u h
  rcases exec_next h with ⟨f, rfl, _⟩ | ⟨u', ret, rfl, heffect⟩
  · exact .inl rfl
  · cases heffect with
    | write | link => exact .inl (State.setReg_stack _ _ _)
    | store | jump | peekRegister | peekCell => exact .inl rfl
    | push v hinstr hwidth =>
      exact .inr (.inl ⟨rfl, hinstr.imp_left fun ⟨r, hr⟩ => ⟨r, hr⟩, v, hwidth, rfl⟩)
    | pop rd v rest hinstr htop => exact .inr (.inr ⟨rfl, ⟨rd, hinstr⟩, v, by simpa using htop⟩)

/-- A register that a write changes is the one written, and not register 0. -/
theorem eq_of_reg_setReg_ne {d j : RegIdx} {v : Int} {st : State} (h : (st.setReg d v).reg j ≠ st.reg j) :
    j = d ∧ j ≠ 0 := by
  rw [State.reg_setReg] at h
  by_cases hwritten : j = d ∧ d ≠ 0
  · obtain ⟨rfl, hd⟩ := hwritten
    exact ⟨rfl, hd⟩
  · exact absurd (if_neg hwritten) h

/-- Settles O47: the effects that write a register write the destination. -/
theorem onlyTheDestinationChanges : Obligations.OnlyTheDestinationChanges := by
  intro i st u j h hchanged
  rcases exec_next h with ⟨f, rfl, _⟩ | ⟨u', ret, rfl, heffect⟩
  · exact absurd rfl hchanged
  · cases heffect with
    | write d v hdest =>
      obtain ⟨rfl, hj⟩ := eq_of_reg_setReg_ne hchanged
      exact ⟨hdest, hj⟩
    | pop rd v rest hinstr =>
      obtain ⟨rfl, hj⟩ := eq_of_reg_setReg_ne (st := { st with stack := rest }) hchanged
      exact ⟨hinstr ▸ rfl, hj⟩
    | link C hinstr =>
      obtain ⟨rfl, hj⟩ := eq_of_reg_setReg_ne (st := st) hchanged
      exact ⟨hinstr ▸ rfl, hj⟩
    | store | push | jump | peekRegister | peekCell => exact absurd rfl hchanged

/-- Settles O48: of all effects the two peeks alone return a value, at the state as it was. -/
theorem onlyPeeksReturnAValue : Obligations.OnlyPeeksReturnAValue := by
  intro i st u v h hreturns
  rcases exec_next h with ⟨f, rfl, _⟩ | ⟨u', ret, rfl, heffect⟩
  · cases hreturns
  · obtain rfl : ret = some v := by simpa using hreturns
    cases heffect with
    | peekRegister r hinstr => exact ⟨.inl ⟨r, hinstr⟩, rfl⟩
    | peekCell C hinstr => exact ⟨.inr ⟨C, hinstr⟩, rfl⟩

end Sys2Proof.Machine

/-! What no instruction reads (10_state.md R10; logs 1, 2, 3): with another reported outcome, list of requests and catalog, every
operation does the same, and the statement about it. -/

namespace Sys2Proof.Machine

/-- The state with the host presenting `q` to a core with the catalog `cat`. -/
def State.surround (q : List Request) (cat : List Entry) (st : State) : State :=
  { st with requests := q, params := { st.params with catalog := cat } }

/-- The same of the state that an outcome answers. -/
def surroundNext (q : List Request) (cat : List Entry) :
    Host.Outcome State Fault Refusal → Host.Outcome State Fault Refusal
  | .next u => .next (u.surround q cat)
  | .fault f => .fault f
  | .refused r => .refused r

/-- The same core with another reported outcome, another list of requests and another catalog. -/
abbrev State.elsewhere (o : Option TxOutcome) (q : List Request) (cat : List Entry) (st : State) : State :=
  { st.surround q cat with outcome := o }

section
variable {o : Option TxOutcome} {q : List Request} {cat : List Entry} {st : State}

theorem raise_elsewhere (f : Fault) : raise f (st.elsewhere o q cat) = surroundNext q cat (raise f st) := rfl

theorem complete_elsewhere (ret : Option Word) :
    complete ret (st.elsewhere o q cat) = surroundNext q cat (complete ret st) := rfl

/-- A register write elsewhere leaves the outcome reported there, as here. -/
theorem State.setReg_elsewhere (d : RegIdx) (v : Int) :
    (st.elsewhere o q cat).setReg d v = (st.setReg d v).elsewhere o q cat := by
  rw [State.setReg, State.setReg]
  split <;> rfl

theorem writeBack_elsewhere (d : RegIdx) (v : Int) :
    writeBack d v (st.elsewhere o q cat) = surroundNext q cat (writeBack d v st) := by
  rw [writeBack, writeBack, State.setReg_elsewhere, complete_elsewhere]

theorem withReg_elsewhere {a : Nat} {k k' : RegIdx → Host.Outcome State Fault Refusal}
    (h : ∀ x, k' x = surroundNext q cat (k x)) :
    withReg a (st.elsewhere o q cat) k' = surroundNext q cat (withReg a st k) := by
  rw [withReg, withReg]
  split
  · exact h _
  · rfl

theorem withRegs2_elsewhere {a b : Nat} {k k' : RegIdx → RegIdx → Host.Outcome State Fault Refusal}
    (h : ∀ x y, k' x y = surroundNext q cat (k x y)) :
    withRegs2 a b (st.elsewhere o q cat) k' = surroundNext q cat (withRegs2 a b st k) :=
  withReg_elsewhere fun x => withReg_elsewhere fun y => h x y

theorem withRegs3_elsewhere {a b c : Nat} {k k' : RegIdx → RegIdx → RegIdx → Host.Outcome State Fault Refusal}
    (h : ∀ x y z, k' x y z = surroundNext q cat (k x y z)) :
    withRegs3 a b c (st.elsewhere o q cat) k' = surroundNext q cat (withRegs3 a b c st k) :=
  withReg_elsewhere fun x => withRegs2_elsewhere fun y z => h x y z

theorem regRegOp_elsewhere (f : Nat → Nat → Int) (d s t : Nat) :
    regRegOp f d s t (st.elsewhere o q cat) = surroundNext q cat (regRegOp f d s t st) :=
  withRegs3_elsewhere fun d _ _ => writeBack_elsewhere d _

theorem regConstOp_elsewhere (f : Nat → Nat → Int) (d s : Nat) (C : Const) :
    regConstOp f d s C (st.elsewhere o q cat) = surroundNext q cat (regConstOp f d s C st) :=
  withRegs2_elsewhere fun d _ => writeBack_elsewhere d _

theorem divisionOp_elsewhere (f : Nat → Nat → Int) (d s t : Nat) :
    divisionOp f d s t (st.elsewhere o q cat) = surroundNext q cat (divisionOp f d s t st) := by
  refine withRegs3_elsewhere fun d s t => ?_
  rw [apply_ite (surroundNext q cat), ← writeBack_elsewhere]
  rfl

theorem memRead_elsewhere (a : Nat) : memRead a (st.elsewhere o q cat) = memRead a st := rfl

theorem effAddr_elsewhere (s : RegIdx) (C : Const) : effAddr s C (st.elsewhere o q cat) = effAddr s C st := rfl

theorem finish_memWrite_elsewhere (a : Nat) (v : Int) :
    finish (st.elsewhere o q cat) (memWrite a v (st.elsewhere o q cat)) = surroundNext q cat (finish st (memWrite a v st)) := by
  by_cases h : a < st.params.memCells
  · rw [memWrite_ok h, memWrite_ok (st := st.elsewhere o q cat) h]
    rfl
  · rw [memWrite_error (not_lt.mp h), memWrite_error (st := st.elsewhere o q cat) (not_lt.mp h)]
    rfl

theorem finish_push_elsewhere (v : Nat) :
    finish (st.elsewhere o q cat) (push v (st.elsewhere o q cat)) = surroundNext q cat (finish st (push v st)) := by
  rcases push_cases v st with ⟨hfull, e⟩ | ⟨hfull, e⟩
  · rw [e, push_of_full (st := st.elsewhere o q cat) hfull]
    rfl
  · rw [e, push_of_not_full (st := st.elsewhere o q cat) hfull]
    rfl

/-- Every instruction does elsewhere what it does here. -/
theorem exec_elsewhere (i : Instr) : exec i (st.elsewhere o q cat) = surroundNext q cat (exec i st) := by
  cases i with
  | add d s t => rw [exec_add, exec_add, regRegOp_elsewhere]
  | sub d s t => rw [exec_sub, exec_sub, regRegOp_elsewhere]
  | addi t s C => rw [exec_addi, exec_addi, regConstOp_elsewhere]
  | mult d s t => rw [exec_mult, exec_mult, regRegOp_elsewhere]
  | fma d s t =>
    rw [exec_fma, exec_fma]
    exact withRegs3_elsewhere fun d _ _ => writeBack_elsewhere d _
  | div d s t => rw [exec_div, exec_div, divisionOp_elsewhere]
  | mod d s t => rw [exec_mod, exec_mod, divisionOp_elsewhere]
  | and d s t => rw [exec_and, exec_and, regRegOp_elsewhere]
  | or d s t => rw [exec_or, exec_or, regRegOp_elsewhere]
  | xor d s t => rw [exec_xor, exec_xor, regRegOp_elsewhere]
  | andi t s C => rw [exec_andi, exec_andi, regConstOp_elsewhere]
  | ori t s C => rw [exec_ori, exec_ori, regConstOp_elsewhere]
  | sll d t C => rw [exec_sll, exec_sll, regConstOp_elsewhere]
  | srl d t C => rw [exec_srl, exec_srl, regConstOp_elsewhere]
  | li rd C =>
    rw [exec_li, exec_li]
    exact withReg_elsewhere fun rd => writeBack_elsewhere rd _
  | lw t C s =>
    rw [exec_lw, exec_lw, execLw, execLw]
    refine withRegs2_elsewhere fun t s => ?_
    rw [effAddr_elsewhere, memRead_elsewhere]
    cases memRead (effAddr s C st) st with
    | ok v => exact writeBack_elsewhere t _
    | error f => rfl
  | sw t C s =>
    rw [exec_sw, exec_sw]
    exact withRegs2_elsewhere fun t s => finish_memWrite_elsewhere _ _
  | stpush r =>
    rw [exec_stpush, exec_stpush]
    exact withReg_elsewhere fun r => finish_push_elsewhere _
  | stpop rd =>
    rw [exec_stpop, exec_stpop, execStpop, execStpop]
    refine withReg_elsewhere fun rd => ?_
    cases hstack : st.stack with
    | nil =>
      rw [pop_of_stack_eq_nil hstack, pop_of_stack_eq_nil (st := st.elsewhere o q cat) hstack]
      rfl
    | cons v rest =>
      rw [pop_of_stack_eq_cons hstack, pop_of_stack_eq_cons (st := st.elsewhere o q cat) hstack]
      exact writeBack_elsewhere (st := { st with stack := rest }) rd v
  | stpushi C =>
    rw [exec_stpushi, exec_stpushi, finish_push_elsewhere]
  | jal C =>
    rw [exec_jal, exec_jal, State.setReg_elsewhere]
    rfl
  | jr r =>
    rw [exec_jr, exec_jr]
    exact withReg_elsewhere fun r => rfl
  | j C =>
    rw [exec_j, exec_j]
    rfl
  | pkr r =>
    rw [exec_pkr, exec_pkr]
    exact withReg_elsewhere fun r => rfl
  | pkm C =>
    rw [exec_pkm, exec_pkm, execPkm, execPkm, memRead_elsewhere]
    cases memRead C.toNat st with
    | ok v => rfl
    | error f => rfl

end

/-- Settles O42: a state with another outcome, list and catalog is the same core elsewhere. -/
theorem effectsDependOnTheCoreAlone : Obligations.EffectsDependOnTheCoreAlone := by
  intro i st u o q cat h
  have helsewhere : exec i (st.elsewhere o q cat) = surroundNext q cat (exec i st) := exec_elsewhere i
  rw [h] at helsewhere
  exact helsewhere

end Sys2Proof.Machine

/-! Words as requests (40_dispatch.md R72; 30_encoding.md R69): the step of a presented word, and the idiom that loads any
constant in three steps. -/

namespace Sys2Proof.Machine

theorem executeWord_of_decode {w : Word} {st : State} {i : Instr} (h : decodeWith st.params.catalog w = some i) :
    executeWord w st = exec i st := by
  rw [executeWord, h]

/-- Settles O32: the step of a word is its transaction, which the decoded instruction or a skip carries out. -/
theorem stepRunsTheDecodedWord : Obligations.StepRunsTheDecodedWord := by
  refine ⟨fun st w rest i hrequests hdecode => ?decoded, fun st w rest hrequests hnone => ?skipped, fun w => rfl⟩
  case decoded =>
    rw [step_of_requests_eq_cons hrequests, transact]
    exact executeWord_of_decode hdecode
  case skipped =>
    rw [step_of_requests_eq_cons hrequests, transact]
    exact executeWord_eq_skip hnone

/-- One step from `st` to `u` serves a request, writes `x` to `d` and leaves the other registers, the pc and the parameters. -/
structure StepWrites (st u : State) (d : RegIdx) (x : Word) : Prop where
  step : step st = .next u
  reg : ∀ j : RegIdx, u.reg j = if j = d ∧ d ≠ 0 then x else st.reg j
  pc : u.pc = st.pc
  requests : u.requests = st.requests.tail
  params : u.params = st.params

/-- The word of an instruction that writes a register, presented to a core with the default catalog. -/
theorem stepWrites_of_encode {st : State} {i : Instr} {rest : List Request} {d : RegIdx} {x : Word}
    (hcatalog : st.params.catalog = catalog) (hrequests : st.requests = .word (encode i) :: rest) (hwf : i.wf = true)
    (h : ∃ u, EndsIn i { st with requests := rest } u (.done none) ∧ WritesRegister { st with requests := rest } u d x) :
    ∃ u, StepWrites st u d x := by
  obtain ⟨u, ⟨hexec, _⟩, hreg, _, _, hpc, hlist, hparams⟩ := h
  obtain ⟨hstep, _⟩ := stepRunsTheDecodedWord
  have hdecode : decodeWith st.params.catalog (encode i) = some i := by rw [hcatalog]; exact decode_encode hwf
  exact ⟨u, (hstep st _ rest i hrequests hdecode).trans hexec, hreg, hpc, by rw [hlist, hrequests]; rfl, hparams⟩

theorem run_succ_of_step {st u : State} (h : step st = .next u) (k : Nat) :
    Host.Core.run Sys2Proof.core (k + 1) st = Host.Core.run Sys2Proof.core k u := by
  have hcore : Sys2Proof.core.step st = .next u := h
  simp only [Host.Core.run, hcore]

/-- A word is its upper half, shifted left by 16, and its lower half. -/
theorem halves_of_word (v : Word) :
    BitVec.ofNat 32 (((v.extractLsb' 16 16).setWidth 32).toNat * 2 ^ 16) ||| (v.extractLsb' 0 16).setWidth 32 = v := by
  apply BitVec.eq_of_getLsbD_eq
  intro i hi
  rw [toNat_zext, BitVec.getLsbD_or, BitVec.getLsbD_ofNat, Nat.testBit_mul_two_pow, BitVec.testBit_toNat,
    BitVec.getLsbD_setWidth, BitVec.getLsbD_extractLsb', BitVec.getLsbD_extractLsb', Nat.zero_add]
  by_cases hhigh : 16 ≤ i
  · have hin : i - 16 < 16 := by omega
    simp [hi, hhigh, hin, Nat.not_lt.mpr hhigh]
  · simp [hi, hhigh, Nat.lt_of_not_le hhigh]

theorem fitsField_val (d : RegIdx) : fitsField d.val = true := decide_eq_true (d.isLt.trans (by decide))

/-- Settles O51: the three steps write `d` alone, and the value in `d` after them is put together from the halves. -/
theorem threeWordsLoadAnyConstant : Obligations.ThreeWordsLoadAnyConstant := by
  intro st d v rest hd hcatalog hrequests
  have hfits := fitsField_val d
  have hwfSll : (Instr.sll d d 16).wf = true := by rw [Instr.wf, hfits]; rfl
  have hwfOri : (Instr.ori d d (v.extractLsb' 0 16)).wf = true := by rw [Instr.wf, hfits]; rfl
  obtain ⟨hli, _⟩ := liLoadsTheConstant
  obtain ⟨hsll, _⟩ := sllShiftsLeftByTheWholeConstant
  obtain ⟨hori, _⟩ := oriSetsTheBitsOfTheConstant
  obtain ⟨a, ha⟩ := stepWrites_of_encode hcatalog hrequests hfits (hli _ d _)
  have hrequestsA := ha.requests
  have hcatalogA : a.params.catalog = catalog := by rw [ha.params, hcatalog]
  rw [hrequests, List.tail_cons] at hrequestsA
  obtain ⟨b, hb⟩ := stepWrites_of_encode hcatalogA hrequestsA hwfSll (hsll _ d d 16)
  have hrequestsB := hb.requests
  have hcatalogB : b.params.catalog = catalog := by rw [hb.params, hcatalogA]
  rw [hrequestsA, List.tail_cons] at hrequestsB
  obtain ⟨u, hu⟩ := stepWrites_of_encode hcatalogB hrequestsB hwfOri (hori _ d d _)
  refine ⟨u, ?run, ?value, ?list, ?pc, fun j hj => ?others⟩
  case run =>
    rw [run_succ_of_step ha.step, run_succ_of_step hb.step, run_succ_of_step hu.step]
    rfl
  case value =>
    have hA : a.reg d = (v.extractLsb' 16 16).setWidth 32 := (ha.reg d).trans (if_pos ⟨rfl, hd⟩)
    have hB : b.reg d = BitVec.ofNat 32 ((a.reg d).toNat * 2 ^ 16) := (hb.reg d).trans (if_pos ⟨rfl, hd⟩)
    have hU : u.reg d = b.reg d ||| (v.extractLsb' 0 16).setWidth 32 := (hu.reg d).trans (if_pos ⟨rfl, hd⟩)
    rw [hU, hB, hA, halves_of_word]
  case list => rw [hu.requests, hrequestsB, List.tail_cons]
  case pc => rw [hu.pc, hb.pc, ha.pc]
  case others =>
    have hother : ¬ (j = d ∧ d ≠ 0) := fun h => hj h.1
    rw [hu.reg, hb.reg, ha.reg, if_neg hother, if_neg hother, if_neg hother]

end Sys2Proof.Machine

/-! Construction, the transaction port, and the words of the spec (10_state.md R25; 40_dispatch.md R70; 95_test_vectors.md). -/

namespace Sys2Proof.Machine

/-- After construction register `k + 1` reads the initial register at `k`. -/
theorem State.reg_construct_succ (p : Params) (regs : Vector Word 29) (m : Memory) (pc : Nat) (k : Fin 29) :
    (State.construct p regs m pc).reg ⟨k.val + 1, Nat.succ_lt_succ k.isLt⟩ = regs[k] := by
  simp [State.reg, State.construct]

theorem State.reg_reset (j : RegIdx) : State.reset.reg j = 0 := by
  simp [State.reg, State.reset, State.construct, Config.initRegs]

/-- Settles O28: construction takes each part from its parameter, and at reset they are the defaults. -/
theorem constructionGivesTheInitialValues : Obligations.ConstructionGivesTheInitialValues :=
  ⟨fun p regs m pc => ⟨State.reg_zero _, State.reg_construct_succ p regs m pc, fun _ => rfl, rfl, rfl, rfl⟩,
    State.reg_reset, fun _ => rfl, rfl, rfl, rfl, rfl, rfl⟩

theorem TxOutcome.retValid_eq_one_iff (o : TxOutcome) : o.retValid = 1 ↔ ∃ v, o = .done (some v) := by
  rcases o with (_ | v) | _ | f <;> simp [TxOutcome.retValid, TxOutcome.ret]

/-- Settles O43: the codes are the definition's, and a value is there in one case of an outcome. -/
theorem portReportsTheOutcome : Obligations.PortReportsTheOutcome :=
  ⟨fun _ => rfl, rfl, rfl, fun _ => rfl, rfl, rfl, fun _ => rfl, rfl, TxOutcome.retValid_eq_one_iff⟩

/-- Settles O52: decoding a fixed word is a computation. -/
theorem wordsOfTheSpecDecode : Obligations.WordsOfTheSpecDecode := by
  unfold Obligations.WordsOfTheSpecDecode
  decide

end Sys2Proof.Machine
